-- ==== Sys2Proof/Word.lean ====
section
/-! DEFINITION. The machine word: every register, memory cell, operand byte and emitted value is 8 bits (R6, R10). -/

namespace Sys2Proof

/-- An unsigned 8-bit value (R9: there is no signed interpretation anywhere in the core). -/
abbrev Byte := BitVec 8

end Sys2Proof
end

