-- ==== Sys2Proof/Config.lean ====
section
/-! DEFINITION. What an implementation fixes: `SP_RESET` and the shape of `OPCODE_MAP` (R6, R7), and the names the encoding
rules are written in (families R73, formats R77, mnemonics R3). The default opcode map stands in Decode.lean. -/

namespace Sys2Proof

/-- The three handler families an opcode's bits B and C select (R73). -/
inductive Family where
  | alu
  | ctrl
  | primary
deriving DecidableEq, Repr

/-- The four instruction formats (R77). -/
inductive Format where
  /-- opcode only -/
  | f0
  /-- opcode, register index -/
  | f1r
  /-- opcode, register index, 8-bit immediate -/
  | f2ri
  /-- opcode, register index, register index -/
  | f2rr
deriving DecidableEq, Repr

/-- The 24 mnemonics, the whole instruction set (R3). -/
inductive Mnemonic where
  | hlt | ldi | prn | push | pop
  | ret | call | jmp | jeq | jne
  | add | sub | mul | div | mod | inc | dec | cmp
  | and | not | or | xor | shl | shr
deriving DecidableEq, Repr

/-- `OPCODE_MAP`: an opcode byte for each mnemonic (R7). -/
abbrev OpcodeMap := Mnemonic → Byte

/-- What a core is configured with: `SP_RESET` and `OPCODE_MAP` (R7). -/
structure Configuration where
  /-- `SP_RESET`, the reset value of R7 -/
  spReset : Byte
  /-- `OPCODE_MAP` -/
  opcodeMap : OpcodeMap

namespace Config

/-- The default `SP_RESET` (R7, R27). -/
def spReset : Byte := 0xF4

end Config

end Sys2Proof
end

