-- ==== Sys2Proof/Machine/State.lean ====
section
/-! DEFINITION. The machine's state, every component of 10_state.md as plain data, the reasons a step can stop, and the
state after reset (R230). -/

namespace Sys2Proof.Machine

/-- The value of the flags register FL: exactly one of Equal, Less-than, Greater-than (R31, R32). -/
inductive Flag where
  /-- Equal -/
  | E
  /-- Less-than -/
  | L
  /-- Greater-than -/
  | G
deriving DecidableEq, Repr

/-- The engine's run state (R34). -/
inductive RunState where
  | running
  | halted
  | faulted
deriving DecidableEq, Repr

/-- The fault kinds of R201. Raising one is a step to a FAULTED state (R209), not a stop of the model. -/
inductive FaultKind where
  /-- decode of a byte outside the opcode table (R202) -/
  | unsupportedOpcode
  /-- DIV or MOD with a zero divisor (R203) -/
  | divisionByZero
  /-- fetch beyond address 255, or a register operand above 7 (R204) -/
  | outOfBounds
  /-- PUSH or CALL at SP = 0, POP or RET incrementing 255 (R205) -/
  | stackBounds
  /-- model-only (R206): a read of R0 to R6 before any write; raised by the checked step alone (log 1) -/
  | unwrittenRegister
  /-- model-only (R206): JEQ or JNE before any CMP; raised by the checked step alone (log 1) -/
  | unwrittenFlags
deriving DecidableEq, Repr

/-- The fault record (R36, R207): the kind, the faulting cycle's pc and its opcode byte, or none when the opcode itself
could not be fetched. -/
structure FaultRecord where
  kind : FaultKind
  pc : Nat
  opcode : Option Byte
deriving DecidableEq, Repr

/-- Why `step` answers no next state. Both reasons are safe: the spec gives these states no step at all (R111). -/
inductive Fault where
  /-- raised by `step` in a HALTED state: terminal, no cycle; safe -/
  | noStepHalted
  /-- raised by `step` in a FAULTED state: terminal, no cycle; safe -/
  | noStepFaulted
deriving DecidableEq, Repr

/-- Why the model gives an instruction no meaning. -/
inductive Refusal where
  /-- raised by an arm of `exec` for an instruction without a meaning; safe; no arm raises it in this model -/
  | notModelled (mnemonic : String)
deriving DecidableEq, Repr

/-- Memory as (address, byte) pairs, addresses strictly rising below 256, no entry 0; an unlisted address reads 0 (R20). -/
abbrev Memory := List Host.Cell

/-- The state of one core instance: the record at the head of 10_state.md. -/
structure State where
  /-- `Mem[0..255]`, instructions and data (R20) -/
  mem : Memory
  /-- R0 to R7; R7 is the stack pointer (R22, R26) -/
  regs : Vector Byte 8
  /-- program counter, 0 to 256, never reduced modulo 256 (R29) -/
  pc : Nat
  /-- flags register FL (R31) -/
  fl : Flag
  /-- run state (R34) -/
  run : RunState
  /-- fault record, none unless FAULTED (R36) -/
  fault : Option FaultRecord
  /-- output stream, oldest value first (R37) -/
  out : List Byte
  /-- model-only bookkeeping: R0 to R6 written since reset (R38) -/
  written : Vector Bool 7
  /-- model-only bookkeeping: FL written since reset (R38) -/
  flWritten : Bool
deriving DecidableEq, Repr

/-- The reset column of R230 for a configured `SP_RESET` (R7, R27). The spec states no value for R0 to R6 and FL: 0 and L are
DESIGN CHOICEs (logs 1, 2). -/
def State.resetWith (spReset : Byte) : State where
  mem := []
  regs := #v[0, 0, 0, 0, 0, 0, 0, spReset]
  pc := 0
  fl := .L
  run := .running
  fault := none
  out := []
  written := #v[false, false, false, false, false, false, false]
  flWritten := false

/-- The machine right after reset, with the default `SP_RESET` (R27). -/
def State.reset : State := State.resetWith Config.spReset

end Sys2Proof.Machine
end

