-- ==== Sys2Proof/Machine/Ops.lean ====
section
/-! DEFINITION. The named operations over memory, registers, pc, output and run state that every meaning is written from,
and the one shared operation that enters a fault. -/

namespace Sys2Proof.Machine

/-! ### Memory (R20, R21) -/

/-- The byte at an address; an address not listed reads 0 (R20: zero-initialised). Out-of-range addresses are refused by
the accessors `memRead` and `memWrite`, which every instruction uses. -/
def Memory.read : Memory → Nat → Byte
  | [], _ => 0
  | (k, v) :: rest, a => if a = k then v else Memory.read rest a

/-- Put a cell in front unless it holds what an unlisted address reads as. -/
def Memory.consCell (a : Nat) (v : Byte) (m : Memory) : Memory := if v = 0 then m else (a, v) :: m

/-- Store a byte, keeping the canonical form: a stored 0 removes the entry. -/
def Memory.write : Memory → Nat → Byte → Memory
  | [], a, v => Memory.consCell a v []
  | (k, w) :: rest, a, v =>
    if a < k then Memory.consCell a v ((k, w) :: rest)
    else if a = k then Memory.consCell a v rest
    else (k, w) :: Memory.write rest a v

/-- Addresses strictly rising from `lo` on and below 256, no entry 0. -/
def Memory.wfFrom : Nat → Memory → Bool
  | _, [] => true
  | lo, (k, v) :: rest => decide (lo ≤ k) && decide (k ≤ 255) && decide (v ≠ 0) && Memory.wfFrom (k + 1) rest

/-- The canonical form of memory, so that equal memories are equal data. -/
def Memory.wf (m : Memory) : Bool := Memory.wfFrom 0 m

/-- Store bytes at consecutive rising addresses (R41). -/
def Memory.writeList (m : Memory) (a : Nat) : List Byte → Memory
  | [] => m
  | v :: vs => Memory.writeList (m.write a v) (a + 1) vs

/-- Replace the whole memory component. -/
def State.setMem (s : State) (m : Memory) : State := { s with mem := m }

/-- `MemRead(addr, 1)` of R21: an address above 255 raises `OutOfBounds`, and no address wraps. -/
def memRead (s : State) (a : Nat) : Except FaultKind Byte :=
  if 255 < a then .error .outOfBounds else .ok (s.mem.read a)

/-- `MemWrite(addr, 1, v)` of R21. -/
def memWrite (s : State) (a : Nat) (v : Byte) : Except FaultKind State :=
  if 255 < a then .error .outOfBounds else .ok (s.setMem (s.mem.write a v))

/-! ### Registers (R22, R109) -/

/-- `X[i]`. -/
def State.reg (s : State) (i : Fin 8) : Byte := s.regs[i]

/-- Mark a register written; R7 has no bit (R38). -/
def markWritten (w : Vector Bool 7) (i : Fin 8) : Vector Bool 7 :=
  if h : i.val < 7 then w.set i.val true else w

/-- `x[i] <- v`: the value is stored modulo 256 (R23, R109), and the register is marked written (R38). -/
def State.setReg (s : State) (i : Fin 8) (v : Nat) : State :=
  { s with regs := s.regs.set i (BitVec.ofNat 8 v), written := markWritten s.written i }

/-- The index of the stack pointer: SP is R7 itself (R26). -/
def spIndex : Fin 8 := 7

/-- SP (R26). -/
def State.sp (s : State) : Byte := s.reg spIndex

/-! ### Program counter, flags, output, run state -/

/-- `pc <- target` (R104). -/
def State.setPc (s : State) (p : Nat) : State := { s with pc := p }

/-- `pc <- p + N + 1` for an instruction with N operand bytes, without wrap (R72, R104). -/
def State.advance (s : State) (n : Nat) : State := s.setPc (s.pc + n + 1)

/-- `FL <- f`, marked written (R38, R175). -/
def State.setFlag (s : State) (f : Flag) : State := { s with fl := f, flWritten := true }

/-- `Emit(v)`: append to the output stream (R37). -/
def State.emit (s : State) (v : Byte) : State := { s with out := s.out ++ [v] }

/-- `halt`: enter HALTED; nothing else changes (R145). -/
def State.halt (s : State) : State := { s with run := .halted }

/-! ### The stack pointer's two moves (R63, R64) -/

/-- Decrement SP before a push; at SP = 0 raise `StackBounds`. -/
def decrementSp (s : State) : Except FaultKind State :=
  if s.sp = 0 then .error .stackBounds else .ok (s.setReg spIndex (s.sp.toNat - 1))

/-- Increment SP after a pop; where the value to increment is 255 raise `StackBounds`. -/
def incrementSp (s : State) : Except FaultKind State :=
  if s.sp = 255 then .error .stackBounds else .ok (s.setReg spIndex (s.sp.toNat + 1))

/-! ### Entering a fault (R209). There is no return from one (R210). -/

/-- The opcode byte a fault record holds: `Mem[p]`, or none when p > 255 (R207). -/
def State.opcodeAtPc (s : State) : Option Byte := if 255 < s.pc then none else some (s.mem.read s.pc)

/-- Raise a fault from the state before the cycle: FAULTED with the record, nothing else changed (R12, R209). -/
def State.enterFault (s : State) (k : FaultKind) : State :=
  { s with run := .faulted, fault := some ⟨k, s.pc, s.opcodeAtPc⟩ }

/-- All or nothing (R12): a cycle that completes answers its state; one that raises discards every write it made and
enters the fault from the state it began in. -/
def commit (s : State) : Except FaultKind State → Host.Outcome State Fault Refusal
  | .ok s' => .next s'
  | .error k => .next (s.enterFault k)

end Sys2Proof.Machine
end

