-- ==== Sys2Proof/Machine/Flags.lean ====
section
/-! DEFINITION. The flag computation, the only one the core has (R31, R175), and the reading of the Equal indicator. -/

namespace Sys2Proof.Machine

/-- CMP's flag: G when x > y, L when x < y, E otherwise, unsigned (R175). -/
def compareFlag (x y : Byte) : Flag :=
  if x.toNat > y.toNat then .G else if x.toNat < y.toNat then .L else .E

/-- The Equal indicator is set (R31). -/
def Flag.equal (f : Flag) : Bool := f == .E

end Sys2Proof.Machine
end

