-- ==== Sys2Proof/Machine/Operands.lean ====
section
/-! DEFINITION. The operand forms: a register operand byte that is read, one that is only written (R106, R107), and the
shapes of the ALU's operations over them. -/

namespace Sys2Proof.Machine

/-- The register an operand byte names; the full byte is the index, and above 7 it raises `OutOfBounds` (R24, R106). -/
def registerIndex (r : Byte) : Except FaultKind (Fin 8) :=
  if h : r.toNat < 8 then .ok ⟨r.toNat, h⟩ else .error .outOfBounds

/-- `check_src`: a register operand the instruction reads. Its model-only written check is the checked step's (log 1). -/
def checkSrc (r : Byte) : Except FaultKind (Fin 8) := registerIndex r

/-- `check_dst`: a register operand the instruction only writes (R106). -/
def checkDst (r : Byte) : Except FaultKind (Fin 8) := registerIndex r

/-- A binary ALU operation: check `a`, then `b`; x[a] <- f(x[a], x[b]) modulo 256; pc + 3 (R107, R160). -/
def aluBinary (f : Byte → Byte → Nat) (a b : Byte) (s : State) : Except FaultKind State := do
  let i ← checkSrc a
  let j ← checkSrc b
  .ok ((s.setReg i (f (s.reg i) (s.reg j))).advance 2)

/-- DIV and MOD: as a binary operation, but after both register checks a zero divisor raises (R165, R166, R203). -/
def aluDivide (f : Byte → Byte → Nat) (a b : Byte) (s : State) : Except FaultKind State := do
  let i ← checkSrc a
  let j ← checkSrc b
  if s.reg j = 0 then .error .divisionByZero
  else .ok ((s.setReg i (f (s.reg i) (s.reg j))).advance 2)

/-- A unary ALU operation: x[a] <- f(x[a]) modulo 256; byte 2 is not looked at; pc + 2 (R79, R160). -/
def aluUnary (f : Byte → Nat) (a : Byte) (s : State) : Except FaultKind State := do
  let i ← checkSrc a
  .ok ((s.setReg i (f (s.reg i))).advance 1)

/-- A jump to a register when `taken` holds of the flags, else past the jump's own operand (R121 to R123). -/
def jumpIf (taken : Flag → Bool) (a : Byte) (s : State) : Except FaultKind State := do
  let i ← checkSrc a
  .ok (if taken s.fl then s.setPc (s.reg i).toNat else s.advance 1)

end Sys2Proof.Machine
end

