-- ==== Sys2Proof/Machine/Alu.lean ====
section
/-! DEFINITION. The ALU family (43_alu.md): the mathematical result of each operation, wrapped by the register write
(R161), and one meaning per instruction. -/

namespace Sys2Proof.Machine

/-! ### Results (R161) -/

/-- x + y (R162). -/
def addResult (x y : Byte) : Nat := x.toNat + y.toNat

/-- (x − y) mod 256 (R163). -/
def subResult (x y : Byte) : Nat := (x.toNat + 256 - y.toNat) % 256

/-- x · y (R164). -/
def mulResult (x y : Byte) : Nat := x.toNat * y.toNat

/-- The unsigned floor quotient (R165); asked only for y ≠ 0. -/
def divResult (x y : Byte) : Nat := x.toNat / y.toNat

/-- The unsigned remainder (R166); asked only for y ≠ 0. -/
def modResult (x y : Byte) : Nat := x.toNat % y.toNat

/-- x + 1 (R167). -/
def incResult (x : Byte) : Nat := x.toNat + 1

/-- (x − 1) mod 256 (R168). -/
def decResult (x : Byte) : Nat := (x.toNat + 255) % 256

/-- Bitwise and (R169). -/
def andResult (x y : Byte) : Nat := (x &&& y).toNat

/-- Bitwise or (R170). -/
def orResult (x y : Byte) : Nat := (x ||| y).toNat

/-- Bitwise exclusive or (R171). -/
def xorResult (x y : Byte) : Nat := (x ^^^ y).toNat

/-- 255 − x: all eight bits inverted (R172). -/
def notResult (x : Byte) : Nat := 255 - x.toNat

/-- x · 2^y, the amount being the whole byte y, not masked (R173). -/
def shlResult (x y : Byte) : Nat := x.toNat * 2 ^ y.toNat

/-- x div 2^y, logical (R174). -/
def shrResult (x y : Byte) : Nat := x.toNat / 2 ^ y.toNat

/-! ### Meanings -/

/-- ADD (R162). -/
def execAdd (a b : Byte) (s : State) : Host.Outcome State Fault Refusal := commit s (aluBinary addResult a b s)

/-- SUB (R163). -/
def execSub (a b : Byte) (s : State) : Host.Outcome State Fault Refusal := commit s (aluBinary subResult a b s)

/-- MUL (R164). -/
def execMul (a b : Byte) (s : State) : Host.Outcome State Fault Refusal := commit s (aluBinary mulResult a b s)

/-- DIV (R165). -/
def execDiv (a b : Byte) (s : State) : Host.Outcome State Fault Refusal := commit s (aluDivide divResult a b s)

/-- MOD (R166). -/
def execMod (a b : Byte) (s : State) : Host.Outcome State Fault Refusal := commit s (aluDivide modResult a b s)

/-- INC (R167). -/
def execInc (a : Byte) (s : State) : Host.Outcome State Fault Refusal := commit s (aluUnary incResult a s)

/-- DEC (R168). -/
def execDec (a : Byte) (s : State) : Host.Outcome State Fault Refusal := commit s (aluUnary decResult a s)

/-- AND (R169). -/
def execAnd (a b : Byte) (s : State) : Host.Outcome State Fault Refusal := commit s (aluBinary andResult a b s)

/-- OR (R170). -/
def execOr (a b : Byte) (s : State) : Host.Outcome State Fault Refusal := commit s (aluBinary orResult a b s)

/-- XOR (R171). -/
def execXor (a b : Byte) (s : State) : Host.Outcome State Fault Refusal := commit s (aluBinary xorResult a b s)

/-- NOT (R172). -/
def execNot (a : Byte) (s : State) : Host.Outcome State Fault Refusal := commit s (aluUnary notResult a s)

/-- SHL (R173). -/
def execShl (a b : Byte) (s : State) : Host.Outcome State Fault Refusal := commit s (aluBinary shlResult a b s)

/-- SHR (R174). -/
def execShr (a b : Byte) (s : State) : Host.Outcome State Fault Refusal := commit s (aluBinary shrResult a b s)

/-- CMP (R175): FL is written, no register is. -/
def execCmp (a b : Byte) (s : State) : Host.Outcome State Fault Refusal :=
  commit s do
    let i ← checkSrc a
    let j ← checkSrc b
    .ok ((s.setFlag (compareFlag (s.reg i) (s.reg j))).advance 2)

end Sys2Proof.Machine
end

