-- ==== Sys2Proof/Machine/Control.lean ====
section
/-! DEFINITION. The control-flow family (41_control_flow.md): every target is absolute, there are no delay slots (R120). -/

namespace Sys2Proof.Machine

/-- JMP (R121). -/
def execJmp (a : Byte) (s : State) : Host.Outcome State Fault Refusal := commit s (jumpIf (fun _ => true) a s)

/-- JEQ (R122). -/
def execJeq (a : Byte) (s : State) : Host.Outcome State Fault Refusal := commit s (jumpIf Flag.equal a s)

/-- JNE (R123). -/
def execJne (a : Byte) (s : State) : Host.Outcome State Fault Refusal := commit s (jumpIf (fun f => !f.equal) a s)

/-- CALL (R124): push p + 2, then jump to the register as it is after the push. A completed fetch has p ≤ 253, so p + 2
fits the byte (R104; log 7). -/
def execCall (a : Byte) (s : State) : Host.Outcome State Fault Refusal :=
  commit s do
    let i ← checkSrc a
    let s₁ ← decrementSp s
    let s₂ ← memWrite s₁ s₁.sp.toNat (BitVec.ofNat 8 (s.pc + 2))
    .ok (s₂.setPc (s₂.reg i).toNat)

/-- RET (R125): pop one byte into pc. -/
def execRet (s : State) : Host.Outcome State Fault Refusal :=
  commit s do
    let t ← memRead s s.sp.toNat
    let s₁ ← incrementSp s
    .ok (s₁.setPc t.toNat)

end Sys2Proof.Machine
end

