-- ==== Sys2Proof/Machine/Primary.lean ====
section
/-! DEFINITION. The primary family (42_data_movement.md): data movement, output, stack and halt. Effects are in the order
of the rules' pseudocode, each reading the results of the earlier ones (R11, R234). -/

namespace Sys2Proof.Machine

/-- LDI (R141). -/
def execLdi (a imm : Byte) (s : State) : Host.Outcome State Fault Refusal :=
  commit s do
    let i ← checkDst a
    .ok ((s.setReg i imm.toNat).advance 2)

/-- PRN (R142). -/
def execPrn (a : Byte) (s : State) : Host.Outcome State Fault Refusal :=
  commit s do
    let i ← checkSrc a
    .ok ((s.emit (s.reg i)).advance 1)

/-- PUSH (R143): x[a] is read after the decrement. -/
def execPush (a : Byte) (s : State) : Host.Outcome State Fault Refusal :=
  commit s do
    let i ← checkSrc a
    let s₁ ← decrementSp s
    let s₂ ← memWrite s₁ s₁.sp.toNat (s₁.reg i)
    .ok (s₂.advance 1)

/-- POP (R144): x[a] is written before SP is tested and incremented. -/
def execPop (a : Byte) (s : State) : Host.Outcome State Fault Refusal :=
  commit s do
    let i ← checkDst a
    let v ← memRead s s.sp.toNat
    let s₁ ← incrementSp (s.setReg i v.toNat)
    .ok (s₁.advance 1)

/-- HLT (R145): enter HALTED, pc unchanged. -/
def execHlt (s : State) : Host.Outcome State Fault Refusal := .next s.halt

end Sys2Proof.Machine
end

