-- ==== Sys2Proof/Syntax.lean ====
section
/-! DEFINITION. The instructions: one constructor per row of the opcode table (R80). A register operand is the full operand
byte, 0 to 255, with no masking (R13, R78): an index above 7 is an instruction the machine meets and faults on (R24). -/

namespace Sys2Proof

/-- An instruction with the operand bytes its format uses (R77, R81): `a` and `b` are register indices, `imm` is LDI's
immediate. A fetched byte the format does not use is no part of the instruction (R79). -/
inductive Instr where
  /-- halt (R145) -/
  | hlt
  /-- load immediate (R141) -/
  | ldi (a imm : Byte)
  /-- print register (R142) -/
  | prn (a : Byte)
  /-- push register (R143) -/
  | push (a : Byte)
  /-- pop into register (R144) -/
  | pop (a : Byte)
  /-- return from subroutine (R125) -/
  | ret
  /-- call subroutine at register (R124) -/
  | call (a : Byte)
  /-- jump to register (R121) -/
  | jmp (a : Byte)
  /-- jump if equal (R122) -/
  | jeq (a : Byte)
  /-- jump if not equal (R123) -/
  | jne (a : Byte)
  /-- add (R162) -/
  | add (a b : Byte)
  /-- subtract (R163) -/
  | sub (a b : Byte)
  /-- multiply (R164) -/
  | mul (a b : Byte)
  /-- unsigned floor quotient (R165) -/
  | div (a b : Byte)
  /-- unsigned remainder (R166) -/
  | mod (a b : Byte)
  /-- increment (R167) -/
  | inc (a : Byte)
  /-- decrement (R168) -/
  | dec (a : Byte)
  /-- compare (R175) -/
  | cmp (a b : Byte)
  /-- bitwise and (R169) -/
  | and (a b : Byte)
  /-- bitwise complement (R172) -/
  | not (a : Byte)
  /-- bitwise or (R170) -/
  | or (a b : Byte)
  /-- bitwise exclusive or (R171) -/
  | xor (a b : Byte)
  /-- shift left (R173) -/
  | shl (a b : Byte)
  /-- logical shift right (R174) -/
  | shr (a b : Byte)
deriving DecidableEq, Repr

/-- The opcode-table row an instruction stands in. -/
def Instr.mnemonic : Instr → Mnemonic
  | .hlt => .hlt
  | .ldi _ _ => .ldi
  | .prn _ => .prn
  | .push _ => .push
  | .pop _ => .pop
  | .ret => .ret
  | .call _ => .call
  | .jmp _ => .jmp
  | .jeq _ => .jeq
  | .jne _ => .jne
  | .add _ _ => .add
  | .sub _ _ => .sub
  | .mul _ _ => .mul
  | .div _ _ => .div
  | .mod _ _ => .mod
  | .inc _ => .inc
  | .dec _ => .dec
  | .cmp _ _ => .cmp
  | .and _ _ => .and
  | .not _ => .not
  | .or _ _ => .or
  | .xor _ _ => .xor
  | .shl _ _ => .shl
  | .shr _ _ => .shr

end Sys2Proof
end

