-- ==== Sys2Proof/WellFormed.lean ====
section
/-! DEFINITION. Which instructions are well formed: those whose register operands name a register, R0 to R7 (R24, and the
`reg` of R86). The hardware decodes the others too, and raises `OutOfBounds` when it runs them (R106). -/

namespace Sys2Proof

/-- The operand bytes an instruction uses as register indices, in the order they are checked (R81, R107). -/
def Instr.registerOperands : Instr → List Byte
  | .hlt | .ret => []
  | .ldi a _ | .prn a | .push a | .pop a | .call a | .jmp a | .jeq a | .jne a => [a]
  | .inc a | .dec a | .not a => [a]
  | .add a b | .sub a b | .mul a b | .div a b | .mod a b | .cmp a b => [a, b]
  | .and a b | .or a b | .xor a b | .shl a b | .shr a b => [a, b]

/-- Every register operand is an index 0 to 7 (R24). -/
def Instr.wellFormed (i : Instr) : Bool :=
  i.registerOperands.all fun r => decide (r.toNat ≤ 7)

end Sys2Proof
end

