-- ==== Sys2Proof/Decode.lean ====
section
/-! DEFINITION. The decoder, total on any bytes and rejecting by name, and the encoder, both written over an opcode map (R7)
from the field layout of R71, the family table of R73, the formats of R77 and the decode function of R76; then the default
map of R80 and the host's view of one table word. -/

namespace Sys2Proof

/-! ### The fields of an opcode byte (R71) -/

/-- Field N, bits 7:6: how many operand bytes follow. -/
def opcodeCount (op : Byte) : Nat := (op.extractLsb' 6 2).toNat

/-- Field B, bit 5: the ALU bit. -/
def opcodeIsAlu (op : Byte) : Bool := op.getLsbD 5

/-- Field C, bit 4: the control-flow bit. -/
def opcodeIsControl (op : Byte) : Bool := op.getLsbD 4

/-- Field ID, bits 3:0: the identifier within the family. -/
def opcodeId (op : Byte) : Nat := (op.extractLsb' 0 4).toNat

/-- The family that bits B and C select; with both set a byte fits no family (R73). -/
def opcodeFamily (op : Byte) : Option Family :=
  match opcodeIsAlu op, opcodeIsControl op with
  | true, false => some .alu
  | false, true => some .ctrl
  | false, false => some .primary
  | true, true => none

/-! ### The columns of the opcode table that do not depend on the map (R77, R80) -/

/-- The 24 mnemonics as a list (R3). -/
def Mnemonic.all : List Mnemonic :=
  [.hlt, .ldi, .prn, .push, .pop, .ret, .call, .jmp, .jeq, .jne, .add, .sub,
   .mul, .div, .mod, .inc, .dec, .cmp, .and, .not, .or, .xor, .shl, .shr]

/-- The family column of R80. -/
def Mnemonic.family : Mnemonic → Family
  | .hlt | .ldi | .prn | .push | .pop => .primary
  | .ret | .call | .jmp | .jeq | .jne => .ctrl
  | .add | .sub | .mul | .div | .mod | .inc | .dec | .cmp => .alu
  | .and | .not | .or | .xor | .shl | .shr => .alu

/-- The format column of R80 (R77). -/
def Mnemonic.format : Mnemonic → Format
  | .hlt | .ret => .f0
  | .prn | .push | .pop | .call | .jmp | .jeq | .jne | .inc | .dec | .not => .f1r
  | .ldi => .f2ri
  | .add | .sub | .mul | .div | .mod | .cmp | .and | .or | .xor | .shl | .shr => .f2rr

/-- How many operand bytes a format has (R77). -/
def Format.operandCount : Format → Nat
  | .f0 => 0
  | .f1r => 1
  | .f2ri | .f2rr => 2

/-- The N column of R80. -/
def Mnemonic.operandCount (m : Mnemonic) : Nat := m.format.operandCount

/-- An opcode map a core may be configured with: each byte keeps its row's N, B and C fields, and within a family an
identifier names one mnemonic (R74, R76; log 3). -/
def OpcodeMap.Admissible (map : OpcodeMap) : Prop :=
  (∀ m, opcodeFamily (map m) = some m.family ∧ opcodeCount (map m) = m.operandCount) ∧
    ∀ m m', m.family = m'.family → opcodeId (map m) = opcodeId (map m') → m = m'

/-- The default `OPCODE_MAP`: the byte column of R80. -/
def opcodeMap : OpcodeMap
  | .hlt => 0x01
  | .ret => 0x11
  | .push => 0x45
  | .pop => 0x46
  | .prn => 0x47
  | .call => 0x50
  | .jmp => 0x54
  | .jeq => 0x55
  | .jne => 0x56
  | .inc => 0x65
  | .dec => 0x66
  | .not => 0x69
  | .ldi => 0x82
  | .add => 0xA0
  | .sub => 0xA1
  | .mul => 0xA2
  | .div => 0xA3
  | .mod => 0xA4
  | .cmp => 0xA7
  | .and => 0xA8
  | .or => 0xAA
  | .xor => 0xAB
  | .shl => 0xAC
  | .shr => 0xAD

/-- The default configuration of R6 and R7. -/
def Configuration.default : Configuration where
  spReset := Config.spReset
  opcodeMap := Sys2Proof.opcodeMap

/-! ### Decoding -/

/-- Why bytes do not decode. The first three are the cases of R75 (a byte with N = 3 has a wrong count) and each is an
`UnsupportedOpcode` when the machine meets it; the last is met only by a decoder given fewer bytes than the core fetches. -/
inductive DecodeError where
  /-- B and C are both set -/
  | noFamily
  /-- the ID is no instruction of the family -/
  | unknownIdentifier
  /-- N differs from the row's N -/
  | wrongOperandCount
  /-- the byte list ends inside the instruction -/
  | truncated
deriving DecidableEq, Repr

/-- The mnemonic an opcode byte stands for: family, then identifier, then operand count (R76). -/
def decodeOpcodeWith (map : OpcodeMap) (op : Byte) : Except DecodeError Mnemonic :=
  match opcodeFamily op with
  | none => .error .noFamily
  | some fam =>
    match Mnemonic.all.find? fun m => m.family == fam && opcodeId (map m) == opcodeId op with
    | none => .error .unknownIdentifier
    | some m => if m.operandCount = opcodeCount op then .ok m else .error .wrongOperandCount

/-- `decode` of R76 in its own shape: (family, identifier, operand count, mnemonic), or none. -/
def decodeFields (map : OpcodeMap) (op : Byte) : Option (Family × Nat × Nat × Mnemonic) :=
  match decodeOpcodeWith map op with
  | .ok m => some (m.family, opcodeId op, opcodeCount op, m)
  | .error _ => none

/-- The instruction of a mnemonic and two operand bytes: each format takes the bytes it uses (R78, R79, R81). -/
def Mnemonic.instr (m : Mnemonic) (a b : Byte) : Instr :=
  match m with
  | .hlt => .hlt
  | .ldi => .ldi a b
  | .prn => .prn a
  | .push => .push a
  | .pop => .pop a
  | .ret => .ret
  | .call => .call a
  | .jmp => .jmp a
  | .jeq => .jeq a
  | .jne => .jne a
  | .add => .add a b
  | .sub => .sub a b
  | .mul => .mul a b
  | .div => .div a b
  | .mod => .mod a b
  | .inc => .inc a
  | .dec => .dec a
  | .cmp => .cmp a b
  | .and => .and a b
  | .not => .not a
  | .or => .or a b
  | .xor => .xor a b
  | .shl => .shl a b
  | .shr => .shr a b

/-- Decode the first instruction of a byte list and return the bytes after it: opcode, then operand bytes in ascending
addresses (R52, R70, R72). -/
def decodeWith (map : OpcodeMap) : List Byte → Except DecodeError (Instr × List Byte)
  | [] => .error .truncated
  | op :: rest =>
    match decodeOpcodeWith map op with
    | .error e => .error e
    | .ok m =>
      match m.format, rest with
      | .f0, rest => .ok (m.instr 0 0, rest)
      | .f1r, a :: rest => .ok (m.instr a 0, rest)
      | .f2ri, a :: b :: rest => .ok (m.instr a b, rest)
      | .f2rr, a :: b :: rest => .ok (m.instr a b, rest)
      | _, _ => .error .truncated

/-- The decoder of the core with the default opcode map. -/
def decode (bytes : List Byte) : Except DecodeError (Instr × List Byte) := decodeWith opcodeMap bytes

/-! ### Encoding -/

/-- The operand bytes of an instruction, as many as its format has (R77). -/
def Instr.operandBytes : Instr → List Byte
  | .hlt | .ret => []
  | .ldi a imm => [a, imm]
  | .prn a | .push a | .pop a | .call a | .jmp a | .jeq a | .jne a => [a]
  | .inc a | .dec a | .not a => [a]
  | .add a b | .sub a b | .mul a b | .div a b | .mod a b | .cmp a b => [a, b]
  | .and a b | .or a b | .xor a b | .shl a b | .shr a b => [a, b]

/-- The bytes of an instruction: its opcode, then its operand bytes (R70, R86). -/
def encodeWith (map : OpcodeMap) (i : Instr) : List Byte := map i.mnemonic :: i.operandBytes

/-- The encoder of the core with the default opcode map. -/
def encode (i : Instr) : List Byte := encodeWith opcodeMap i

/-! ### One word of the opcode table -/

/-- Byte `k` of a number whose byte 0 is the instruction's first byte. -/
def tableByte (w k : Nat) : Byte := BitVec.ofNat 8 (w >>> (8 * k))

/-- The three bytes a core fetches for the table word `w` of `nbits` bits: the bits above `nbits` are 0. -/
def tableBytes (nbits w : Nat) : List Byte :=
  [tableByte (w % 2 ^ nbits) 0, tableByte (w % 2 ^ nbits) 1, tableByte (w % 2 ^ nbits) 2]

/-- The instruction the decoder reads from a table word (bit 0 is bit 0 of the first byte, the second byte is bits 15:8). -/
def decodeTableWord (nbits w : Nat) : Option Instr :=
  match decode (tableBytes nbits w) with
  | .ok (i, _) => some i
  | .error _ => none

end Sys2Proof
end

