-- ==== Sys2Proof/Machine/Fetch.lean ====
section
/-! DEFINITION. The fetch and decode steps of a cycle (R101, R102), and placing an instruction's bytes where the next
cycle fetches them. -/

namespace Sys2Proof.Machine

/-- Fetch the opcode at pc, then pc + 1 and pc + 2, always all three, each through the bounds-checked accessor (R101). -/
def fetch (s : State) : Except FaultKind (Byte × Byte × Byte) := do
  let op ← memRead s s.pc
  let a ← memRead s (s.pc + 1)
  let b ← memRead s (s.pc + 2)
  .ok (op, a, b)

/-- Fetch, then decode by an opcode map; bytes that decode to nothing raise `UnsupportedOpcode` (R7, R102). -/
def fetchDecodeWith (map : OpcodeMap) (s : State) : Except FaultKind Instr := do
  let (op, a, b) ← fetch s
  match decodeWith map [op, a, b] with
  | .ok (i, _) => .ok i
  | .error _ => .error .unsupportedOpcode

/-- The address the next fetch can start at: pc itself, or 0 where a fetch at pc would run past address 255. -/
def fetchBase (s : State) : Nat := if s.pc ≤ 253 then s.pc else 0

/-- A RUNNING state whose next fetch reads these bytes: they are stored at the fetch address (log 10). -/
def State.placeBytes (s : State) (bytes : List Byte) : State :=
  { s with mem := s.mem.writeList (fetchBase s) bytes, pc := fetchBase s, run := .running, fault := none }

end Sys2Proof.Machine
end

