-- ==== Sys2Proof/Machine/Step.lean ====
section
/-! DEFINITION. One cycle (R110): fetch, decode, execute. HALTED and FAULTED have no step (R111). -/

namespace Sys2Proof.Machine

/-- One cycle of a core configured with an opcode map (R7). A fault raised by the fetch or the decode enters FAULTED (R105);
the meaning of the decoded instruction does everything else, the pc update included. -/
def stepWith (map : OpcodeMap) (s : State) : Host.Outcome State Fault Refusal :=
  match s.run with
  | .halted => .fault .noStepHalted
  | .faulted => .fault .noStepFaulted
  | .running =>
    match fetchDecodeWith map s with
    | .error k => .next (s.enterFault k)
    | .ok i => exec i s

/-- One cycle of the core with the default opcode map. -/
def step (s : State) : Host.Outcome State Fault Refusal := stepWith opcodeMap s

/-- The state with one table word stored where `step` fetches next (log 10). -/
def State.withFetchWord (s : State) (nbits w : Nat) : State := s.placeBytes (tableBytes nbits w)

end Sys2Proof.Machine
end

