-- ==== Sys2Proof/Machine/Checked.lean ====
section
/-! DEFINITION. The checked step: the spec's model-only faults `UnwrittenRegister` and `UnwrittenFlags` (R38, R106, R206)
laid over `step`. `step` itself runs such an instruction with the reset value the log names (log 1); a claim that must not
rest on those values is stated of the checked step. -/

namespace Sys2Proof.Machine

/-- What an instruction does with a register operand (R81, R106). -/
inductive OperandRole where
  /-- read, and perhaps written after: `check_src` -/
  | src
  /-- only written: `check_dst` -/
  | dst
deriving DecidableEq, Repr

/-- An instruction's register operands with their roles, in the order they are checked (R81, R107). -/
def operandChecks : Instr → List (OperandRole × Byte)
  | .hlt | .ret => []
  | .ldi a _ | .pop a => [(.dst, a)]
  | .prn a | .push a | .call a | .jmp a | .jeq a | .jne a => [(.src, a)]
  | .inc a | .dec a | .not a => [(.src, a)]
  | .add a b | .sub a b | .mul a b | .div a b | .mod a b | .cmp a b => [(.src, a), (.src, b)]
  | .and a b | .or a b | .xor a b | .shl a b | .shr a b => [(.src, a), (.src, b)]

/-- The instruction reads FL: JEQ and JNE alone (R31). -/
def readsFlags : Instr → Bool
  | .jeq _ | .jne _ => true
  | .hlt | .ret | .ldi _ _ | .pop _ | .prn _ | .push _ | .call _ | .jmp _ | .inc _ | .dec _ | .not _ => false
  | .add _ _ | .sub _ _ | .mul _ _ | .div _ _ | .mod _ _ | .cmp _ _ => false
  | .and _ _ | .or _ _ | .xor _ _ | .shl _ _ | .shr _ _ => false

/-- The written bit of a register; R7 counts as written, its reset value being stated (R38). -/
def registerWritten (s : State) (i : Fin 8) : Bool := if h : i.val < 7 then s.written[i.val] else true

/-- `check_src` and `check_dst` of R106 with the written check. -/
def checkOperand (s : State) : OperandRole × Byte → Except FaultKind Unit
  | (.src, r) => do
    let i ← checkSrc r
    if registerWritten s i then .ok () else .error .unwrittenRegister
  | (.dst, r) => do
    let _ ← checkDst r
    .ok ()

/-- The operand checks in order: the first that raises decides (R107, R208). -/
def checkOperands (s : State) : List (OperandRole × Byte) → Except FaultKind Unit
  | [] => .ok ()
  | c :: cs => do
    checkOperand s c
    checkOperands s cs

/-- Every check the model-only faults take part in: the operands, then the flags (R107, R122, R123, R208). -/
def writtenCheck (i : Instr) (s : State) : Except FaultKind Unit := do
  checkOperands s (operandChecks i)
  if readsFlags i && !s.flWritten then .error .unwrittenFlags else .ok ()

/-- The effect of an instruction with the model-only faults of R206. -/
def execChecked (i : Instr) (s : State) : Host.Outcome State Fault Refusal :=
  match writtenCheck i s with
  | .error k => .next (s.enterFault k)
  | .ok () => exec i s

/-- One cycle with the model-only faults of R206, of a core configured with an opcode map (R7). -/
def stepCheckedWith (map : OpcodeMap) (s : State) : Host.Outcome State Fault Refusal :=
  match s.run with
  | .halted => .fault .noStepHalted
  | .faulted => .fault .noStepFaulted
  | .running =>
    match fetchDecodeWith map s with
    | .error k => .next (s.enterFault k)
    | .ok i => execChecked i s

/-- The checked step with the default opcode map. -/
def stepChecked (s : State) : Host.Outcome State Fault Refusal := stepCheckedWith opcodeMap s

end Sys2Proof.Machine
end

