-- ==== Sys2Proof/Machine/Ports.lean ====
section
/-! DEFINITION. The block's abstract ports (10_state.md section 9): load, run, status and inspection. Reset is
`State.reset`, and the output port is the field `out`. -/

namespace Sys2Proof.Machine

/-- The machine of a configuration, behind the host's interface (R7); `Sys2Proof.core` is the default one. -/
def coreWith (c : Configuration) : Host.Core where
  State := State
  Fault := Fault
  Refusal := Refusal
  step := stepWith c.opcodeMap
  reset := State.resetWith c.spReset

/-- Load (R41, R230): a new instance of a configuration with the image at address 0 upward; an image over 256 bytes never
reaches the core. -/
def State.bootWith (c : Configuration) (image : List Byte) : Option State :=
  if image.length ≤ 256 then some ((State.resetWith c.spReset).setMem (Memory.writeList [] 0 image)) else none

/-- Load an instance of the default configuration. -/
def State.boot (image : List Byte) : Option State := State.bootWith Configuration.default image

/-- Run (R43, R100): at most `n` cycles of the loop, which returns where there is no next cycle. -/
def runCyclesWith (c : Configuration) : Nat → State → State
  | 0, s => s
  | n + 1, s =>
    match stepWith c.opcodeMap s with
    | .next s' => runCyclesWith c n s'
    | .fault _ => s
    | .refused _ => s

/-- Run an instance of the default configuration. -/
def runCycles (n : Nat) (s : State) : State := runCyclesWith Configuration.default n s

/-- The codes of the status port (R201). -/
def FaultKind.code : FaultKind → Nat
  | .unsupportedOpcode => 1
  | .divisionByZero => 2
  | .outOfBounds => 3
  | .stackBounds => 4
  | .unwrittenRegister => 5
  | .unwrittenFlags => 6

/-- What the status port shows (R44): the run state, the fault code (0 for none, R201) and the fault record. -/
structure Status where
  run : RunState
  code : Nat
  record : Option FaultRecord
deriving DecidableEq, Repr

/-- Status port (R44). -/
def State.status (s : State) : Status where
  run := s.run
  code := match s.fault with
    | none => 0
    | some f => f.kind.code
  record := s.fault

/-- What the inspection port shows (R46): pc, the three bytes at pc (none above address 255), and the eight registers (none
for an unwritten one). -/
structure Inspection where
  pc : Nat
  bytes : List (Option Byte)
  regs : List (Option Byte)
deriving DecidableEq, Repr

/-- A byte as the inspection port shows it; it never faults (R46). -/
def inspectByte (s : State) (a : Nat) : Option Byte := if 255 < a then none else some (s.mem.read a)

/-- A register as the inspection port shows it (R46). -/
def inspectRegister (s : State) (i : Fin 8) : Option Byte := if registerWritten s i then some (s.reg i) else none

/-- Inspection port (R46): it reads the state and changes nothing. -/
def State.inspect (s : State) : Inspection where
  pc := s.pc
  bytes := [inspectByte s s.pc, inspectByte s (s.pc + 1), inspectByte s (s.pc + 2)]
  regs := (List.finRange 8).map (inspectRegister s)

end Sys2Proof.Machine
end

