-- ==== Sys2Proof/Safety.lean ====
section
/-! DEFINITION. The terms claims are stated in: what a run's end is (R112), the invariant of the machine, and what an
instruction leaves unchanged. -/

namespace Sys2Proof.Machine

/-- A run ends well in HALTED (R112). -/
def State.endedWell (s : State) : Prop := s.run = .halted

/-- A run ends in error in FAULTED, which is never a good final state (R112). -/
def State.endedInError (s : State) : Prop := s.run = .faulted

/-- What every state of a run satisfies: memory is in canonical form, pc is 0 to 256 (R29), and the fault record is set in
FAULTED alone, holding the pc and the opcode byte of the cycle that faulted (R36, R207). -/
structure State.Inv (s : State) : Prop where
  memory : s.mem.wf = true
  pcRange : s.pc ≤ 256
  recordIffFaulted : s.fault.isSome = true ↔ s.run = .faulted
  recordContext : ∀ f, s.fault = some f → f.pc = s.pc ∧ f.opcode = s.opcodeAtPc

/-- Every address reads as before. -/
def KeepsMemory (s t : State) : Prop := ∀ adr, t.mem.read adr = s.mem.read adr

/-- Every register but those listed, and its written bit, is as before. -/
def KeepsRegistersBut (changed : List (Fin 8)) (s t : State) : Prop :=
  ∀ r, r ∉ changed → t.reg r = s.reg r ∧ registerWritten t r = registerWritten s r

/-- FL and its written bit are as before. -/
def KeepsFlags (s t : State) : Prop := t.fl = s.fl ∧ t.flWritten = s.flWritten

/-- The output stream is as before. -/
def KeepsOutput (s t : State) : Prop := t.out = s.out

/-- The run state and the fault record are as before. -/
def KeepsRunState (s t : State) : Prop := t.run = s.run ∧ t.fault = s.fault

/-- Nothing but pc and the listed registers differs: the frame of an instruction that only writes registers. -/
structure OnlyRegisters (changed : List (Fin 8)) (s t : State) : Prop where
  memory : KeepsMemory s t
  registers : KeepsRegistersBut changed s t
  flags : KeepsFlags s t
  output : KeepsOutput s t
  runState : KeepsRunState s t

/-- An instruction of `n` bytes that gives one register a value and marks it written, and changes nothing else but pc. -/
structure RegisterResult (i : Fin 8) (v n : Nat) (s t : State) : Prop where
  value : (t.reg i).toNat = v
  marked : registerWritten t i = true
  pc : t.pc = s.pc + n
  frame : OnlyRegisters [i] s t

/-- Nothing but pc, SP and the one byte at an address differs: the frame of a push. -/
structure OnlyStackStore (adr : Nat) (s t : State) : Prop where
  memory : ∀ a, a ≠ adr → t.mem.read a = s.mem.read a
  registers : KeepsRegistersBut [spIndex] s t
  flags : KeepsFlags s t
  output : KeepsOutput s t
  runState : KeepsRunState s t

/-- The entry into a fault from the state before the cycle: FAULTED, the record of kind, pc and opcode byte (none above
address 255), and nothing else changed (R12, R207, R209). -/
def FaultedFrom (k : FaultKind) (s t : State) : Prop :=
  t = { s with run := .faulted, fault := some ⟨k, s.pc, if 255 < s.pc then none else some (s.mem.read s.pc)⟩ }

/-- If an operand byte names a register, that register is written (R38); R7 always is. -/
def OperandWritten (s : State) (a : Byte) : Prop := ∀ r : Fin 8, a.toNat = r.val → registerWritten s r = true

/-- Everything an instruction reads is written: the registers of R25's and R81's read columns, and FL for JEQ and JNE. -/
def ReadsOnlyWritten (s : State) : Instr → Prop
  | .hlt | .ret | .ldi _ _ | .pop _ => True
  | .prn a | .push a | .call a | .jmp a | .inc a | .dec a | .not a => OperandWritten s a
  | .jeq a | .jne a => OperandWritten s a ∧ s.flWritten = true
  | .add a b | .sub a b | .mul a b | .div a b | .mod a b | .cmp a b => OperandWritten s a ∧ OperandWritten s b
  | .and a b | .or a b | .xor a b | .shl a b | .shr a b => OperandWritten s a ∧ OperandWritten s b

/-- Two states that agree on everything but the values of registers, and of FL, that nothing has written since reset. -/
structure AgreeOnWritten (s t : State) : Prop where
  mem : s.mem = t.mem
  pc : s.pc = t.pc
  run : s.run = t.run
  fault : s.fault = t.fault
  out : s.out = t.out
  written : s.written = t.written
  flWritten : s.flWritten = t.flWritten
  regs : ∀ i, registerWritten s i = true → s.reg i = t.reg i
  fl : s.flWritten = true → s.fl = t.fl

end Sys2Proof.Machine
end

