-- ==== Sys2Proof/Certificates/Slice0/Obligations.lean ====
section
/-! DEFINITION. The statements for the provers: one Prop per obligation. A register operand is a byte `a` with
`a.toNat = i.val` for a register `i`; the bytes above 7 have a statement of their own (`RegisterIndexOutOfBounds`).
Statements about a cycle hold of the machine of every opcode map, or of every admissible one where they name an opcode (R7);
`DefaultMachineIsConfigured` says that `step`, `State.reset` and `core` are that machine at the defaults. -/

open Sys2Proof Sys2Proof.Machine

/-! ### Reset, the host's ports -/

/-- R7: the core the host runs is the machine of the default configuration, whose `SP_RESET` is 0xF4. -/
def Obligations.DefaultMachineIsConfigured : Prop :=
  core = coreWith Configuration.default ∧ (∀ s, step s = stepWith Configuration.default.opcodeMap s) ∧
    (∀ s, stepChecked s = stepCheckedWith Configuration.default.opcodeMap s) ∧
    State.reset = State.resetWith Configuration.default.spReset ∧ Configuration.default.spReset = 0xF4

/-- R27, R30, R35, R20, R36, R37, R38: what reset leaves, for everything the spec gives a reset value, with any configured
`SP_RESET` in R7 and with 0xF4 by default. -/
def Obligations.ResetStateAsSpecified : Prop :=
  (∀ spReset : Byte, ∀ s, s = State.resetWith spReset →
    (∀ adr, s.mem.read adr = 0) ∧ s.reg 7 = spReset ∧ s.pc = 0 ∧ s.run = .running ∧ s.fault = none ∧ s.out = [] ∧
      (∀ i : Fin 8, i ≠ 7 → registerWritten s i = false) ∧ s.flWritten = false) ∧
  State.reset = State.resetWith 0xF4

/-- The reset state of every configuration satisfies the invariant. -/
def Obligations.ResetSatisfiesInvariant : Prop := ∀ spReset : Byte, (State.resetWith spReset).Inv

/-- R41, R230: booting an image stores its bytes from address 0 upward, leaves 0 above it and the rest of the state as at
reset; an image over 256 bytes is refused. -/
def Obligations.BootLoadsImage : Prop :=
  ∀ (c : Configuration) (image : List Byte),
    (image.length ≤ 256 →
      ∃ s, State.bootWith c image = some s ∧ (∀ (k : Nat) (h : k < image.length), s.mem.read k = image[k]) ∧
        (∀ k, image.length ≤ k → s.mem.read k = 0) ∧
        s.setMem (State.resetWith c.spReset).mem = State.resetWith c.spReset ∧ s.Inv) ∧
    (256 < image.length → State.bootWith c image = none)

/-- R44, R201: the status port shows the run state and the fault record; its code is 0 without a record, and 1 to 6 for the
six kinds in the order of R201. -/
def Obligations.StatusPortShows : Prop :=
  ∀ s : State,
    s.status.run = s.run ∧ s.status.record = s.fault ∧ (s.fault = none → s.status.code = 0) ∧
    ∀ f, s.fault = some f →
      (f.kind = .unsupportedOpcode → s.status.code = 1) ∧ (f.kind = .divisionByZero → s.status.code = 2) ∧
      (f.kind = .outOfBounds → s.status.code = 3) ∧ (f.kind = .stackBounds → s.status.code = 4) ∧
      (f.kind = .unwrittenRegister → s.status.code = 5) ∧ (f.kind = .unwrittenFlags → s.status.code = 6)

/-- R46: the inspection port shows pc, the three bytes at pc with a byte above 255 absent, and the eight registers with an
unwritten one absent. -/
def Obligations.InspectionPortShows : Prop :=
  ∀ s : State,
    s.inspect.pc = s.pc ∧
    (∀ k, k < 3 → s.inspect.bytes[k]? = some (if s.pc + k ≤ 255 then some (s.mem.read (s.pc + k)) else none)) ∧
    ∀ i : Fin 8, s.inspect.regs[i.val]? = some (if registerWritten s i = true then some (s.reg i) else none)

/-! ### Encoding -/

/-- R80: six opcode bytes written out bit by bit, with operands, decode to their instructions. -/
def Obligations.OpcodeWordsDecode : Prop :=
  decode [0b00000001] = .ok (.hlt, []) ∧
  decode [0b10000010, 0b00000011, 0b11111111] = .ok (.ldi 3 255, []) ∧
  decode [0b01000101, 0b00000110] = .ok (.push 6, []) ∧
  decode [0b01010101, 0b00000001] = .ok (.jeq 1, []) ∧
  decode [0b01101001, 0b00000100] = .ok (.not 4, []) ∧
  decode [0b10101101, 0b00000010, 0b00000101] = .ok (.shr 2 5, [])

/-- The default map has the bytes of R80, and is one a core may be configured with: it keeps every row's N, B and C fields, and
identifiers are distinct within a family. -/
def Obligations.DefaultOpcodeMapAdmissible : Prop :=
  opcodeMap.Admissible ∧
  ([.hlt, .ret, .push, .pop, .prn, .call, .jmp, .jeq, .jne, .inc, .dec, .not, .ldi, .add, .sub, .mul, .div, .mod, .cmp, .and,
    .or, .xor, .shl, .shr] : List Mnemonic).map opcodeMap =
    [0x01, 0x11, 0x45, 0x46, 0x47, 0x50, 0x54, 0x55, 0x56, 0x65, 0x66, 0x69, 0x82, 0xA0, 0xA1, 0xA2, 0xA3, 0xA4, 0xA7, 0xA8,
      0xAA, 0xAB, 0xAC, 0xAD]

/-- Under every admissible opcode map, decoding an encoded instruction, with any bytes after it, gives the instruction and
exactly the bytes after it. -/
def Obligations.DecodeOfEncode : Prop :=
  ∀ (map : OpcodeMap), map.Admissible → ∀ (i : Instr) (rest : List Byte),
    decodeWith map (encodeWith map i ++ rest) = .ok (i, rest)

/-- Under every admissible opcode map, bytes that decode are the encoding of the instruction they decode to, then the rest:
no word has two meanings and no second word has the same one. -/
def Obligations.EncodeOfDecode : Prop :=
  ∀ (map : OpcodeMap), map.Admissible → ∀ (bytes : List Byte) (i : Instr) (rest : List Byte),
    decodeWith map bytes = .ok (i, rest) → bytes = encodeWith map i ++ rest

/-! ### The cycle -/

/-- A RUNNING state whose bytes at pc decode runs exactly the decoded instruction; nothing is added around it. -/
def Obligations.StepRunsDecodedInstruction : Prop :=
  ∀ (map : OpcodeMap) (s : State) (i : Instr) (rest : List Byte), s.run = .running → s.pc ≤ 253 →
    decodeWith map [s.mem.read s.pc, s.mem.read (s.pc + 1), s.mem.read (s.pc + 2)] = .ok (i, rest) →
      stepWith map s = exec i s

/-- R101: a fetch at pc above 255 raises `OutOfBounds` with opcode none, one at 254 or 255 raises it with the opcode there,
whatever the opcode, and any other reads the three bytes. -/
def Obligations.FetchBoundsAndBytes : Prop :=
  ∀ (map : OpcodeMap) (s : State), s.run = .running →
    (255 < s.pc → stepWith map s = .next { s with run := .faulted, fault := some ⟨.outOfBounds, s.pc, none⟩ }) ∧
    ((s.pc = 254 ∨ s.pc = 255) →
      stepWith map s = .next { s with run := .faulted, fault := some ⟨.outOfBounds, s.pc, some (s.mem.read s.pc)⟩ }) ∧
    (s.pc ≤ 253 → fetch s = .ok (s.mem.read s.pc, s.mem.read (s.pc + 1), s.mem.read (s.pc + 2)))

/-- R202: each of the 232 bytes outside the opcode table raises `UnsupportedOpcode` when the cycle decodes it, and so does
every byte outside the map of a core configured with another admissible map. -/
def Obligations.IllegalOpcodesRaiseUnsupported : Prop :=
  (∀ (map : OpcodeMap), map.Admissible → ∀ s : State, s.run = .running → s.pc ≤ 253 → (∀ m, map m ≠ s.mem.read s.pc) →
    stepWith map s = .next
      { s with run := .faulted, fault := some ⟨.unsupportedOpcode, s.pc, some (s.mem.read s.pc)⟩ }) ∧
  (∀ s : State, s.run = .running → s.pc ≤ 253 →
    s.mem.read s.pc ∉ ([0x01, 0x11, 0x45, 0x46, 0x47, 0x50, 0x54, 0x55, 0x56, 0x65, 0x66, 0x69, 0x82, 0xA0, 0xA1, 0xA2,
      0xA3, 0xA4, 0xA7, 0xA8, 0xAA, 0xAB, 0xAC, 0xAD] : List Byte) →
    step s = .next
      { s with run := .faulted, fault := some ⟨.unsupportedOpcode, s.pc, some (s.mem.read s.pc)⟩ }) ∧
  ((List.range 256).filter fun n => (decodeFields opcodeMap (BitVec.ofNat 8 n)).isNone).length = 232

/-- R111: HALTED and FAULTED have no step. -/
def Obligations.HaltedAndFaultedHaveNoStep : Prop :=
  ∀ (map : OpcodeMap) (s : State),
    (s.run = .halted → stepWith map s = .fault .noStepHalted) ∧
      (s.run = .faulted → stepWith map s = .fault .noStepFaulted)

/-- R209: a cycle that ends FAULTED has changed nothing but the run state and the record, and the record holds the pc and
opcode byte of the cycle. -/
def Obligations.FaultEntryIsPrecise : Prop :=
  ∀ (map : OpcodeMap) (s t : State), stepWith map s = .next t → t.run = .faulted → ∃ k, FaultedFrom k s t

/-! ### Registers and memory -/

/-- R23: every register write stores its value modulo 256; it marks the register written and leaves every other register
and every other written bit. -/
def Obligations.RegisterWriteWraps : Prop :=
  ∀ (s : State) (i : Fin 8) (v : Nat),
    ((s.setReg i v).reg i).toNat = v % 256 ∧ registerWritten (s.setReg i v) i = true ∧
      KeepsRegistersBut [i] s (s.setReg i v)

/-- R24: a register operand above 7 raises `OutOfBounds`, whatever the instruction, its other operand and the state. -/
def Obligations.RegisterIndexOutOfBounds : Prop :=
  ∀ (s : State) (i : Instr) (r : Byte), r ∈ i.registerOperands → 7 < r.toNat →
    ∃ t, exec i s = .next t ∧ FaultedFrom .outOfBounds s t

/-- R21: the memory accessors raise `OutOfBounds` above address 255; at or below it a read returns the byte, and a write
makes exactly the addressed byte read as written, in a memory in canonical form, which it keeps. -/
def Obligations.MemoryAccessors : Prop :=
  ∀ (s : State) (adr : Nat) (v : Byte),
    (255 < adr → memRead s adr = .error .outOfBounds ∧ memWrite s adr v = .error .outOfBounds) ∧
    (adr ≤ 255 → memRead s adr = .ok (s.mem.read adr) ∧
      ∃ t, memWrite s adr v = .ok t ∧ { t with mem := s.mem } = s ∧ (∀ b, b ≠ adr → t.mem.read b = s.mem.read b) ∧
        (s.mem.wf = true → t.mem.read adr = v ∧ t.mem.wf = true))

/-! ### ALU -/

/-- ADD, SUB and MUL complete on all registers, wrap modulo 256, and change nothing but x[a] and pc. -/
def Obligations.AddSubMulResults : Prop :=
  ∀ (s : State) (a b : Byte) (i j : Fin 8), a.toNat = i.val → b.toNat = j.val →
    (∃ t, exec (.add a b) s = .next t ∧ RegisterResult i (((s.reg i).toNat + (s.reg j).toNat) % 256) 3 s t) ∧
    (∃ t, exec (.sub a b) s = .next t ∧
      RegisterResult i (if (s.reg i).toNat < (s.reg j).toNat then (s.reg i).toNat + 256 - (s.reg j).toNat
        else (s.reg i).toNat - (s.reg j).toNat) 3 s t) ∧
    ∃ t, exec (.mul a b) s = .next t ∧ RegisterResult i (((s.reg i).toNat * (s.reg j).toNat) % 256) 3 s t

/-- DIV and MOD with a nonzero divisor give the unsigned q and r with x = q · y + r and r < y, and change nothing but x[a]
and pc. -/
def Obligations.DivModResults : Prop :=
  ∀ (s : State) (a b : Byte) (i j : Fin 8), a.toNat = i.val → b.toNat = j.val → s.reg j ≠ 0 →
    ∃ q r, (s.reg i).toNat = q * (s.reg j).toNat + r ∧ r < (s.reg j).toNat ∧
      (∃ t, exec (.div a b) s = .next t ∧ RegisterResult i q 3 s t) ∧
      ∃ t, exec (.mod a b) s = .next t ∧ RegisterResult i r 3 s t

/-- R203: DIV and MOD with a zero divisor register raise `DivisionByZero`, after both register checks. -/
def Obligations.DivisionByZeroRaises : Prop :=
  ∀ (s : State) (a b : Byte) (i j : Fin 8), a.toNat = i.val → b.toNat = j.val → s.reg j = 0 →
    (∃ t, exec (.div a b) s = .next t ∧ FaultedFrom .divisionByZero s t) ∧
    ∃ t, exec (.mod a b) s = .next t ∧ FaultedFrom .divisionByZero s t

/-- INC, DEC and NOT complete on all registers, R7 included, and wrap; they change nothing but x[a] and pc. -/
def Obligations.IncDecNotResults : Prop :=
  ∀ (s : State) (a : Byte) (i : Fin 8), a.toNat = i.val →
    (∃ t, exec (.inc a) s = .next t ∧
      RegisterResult i (if (s.reg i).toNat = 255 then 0 else (s.reg i).toNat + 1) 2 s t) ∧
    (∃ t, exec (.dec a) s = .next t ∧
      RegisterResult i (if (s.reg i).toNat = 0 then 255 else (s.reg i).toNat - 1) 2 s t) ∧
    ∃ t, exec (.not a) s = .next t ∧ RegisterResult i (255 - (s.reg i).toNat) 2 s t

/-- AND, OR and XOR act on each bit and change nothing but x[a] and pc. -/
def Obligations.AndOrXorBits : Prop :=
  ∀ (s : State) (a b : Byte) (i j : Fin 8), a.toNat = i.val → b.toNat = j.val →
    (∃ t v, exec (.and a b) s = .next t ∧ RegisterResult i v 3 s t ∧
      ∀ n, n < 8 → (t.reg i).getLsbD n = ((s.reg i).getLsbD n && (s.reg j).getLsbD n)) ∧
    (∃ t v, exec (.or a b) s = .next t ∧ RegisterResult i v 3 s t ∧
      ∀ n, n < 8 → (t.reg i).getLsbD n = ((s.reg i).getLsbD n || (s.reg j).getLsbD n)) ∧
    ∃ t v, exec (.xor a b) s = .next t ∧ RegisterResult i v 3 s t ∧
      ∀ n, n < 8 → (t.reg i).getLsbD n = ((s.reg i).getLsbD n ^^ (s.reg j).getLsbD n)

/-- SHL and SHR shift by the whole byte x[b], not masked; an amount of 8 or more gives 0; SHR is logical. -/
def Obligations.ShlShrResults : Prop :=
  ∀ (s : State) (a b : Byte) (i j : Fin 8), a.toNat = i.val → b.toNat = j.val →
    (∃ t, exec (.shl a b) s = .next t ∧
      RegisterResult i (if 8 ≤ (s.reg j).toNat then 0 else (s.reg i).toNat * 2 ^ (s.reg j).toNat % 256) 3 s t) ∧
    ∃ t, exec (.shr a b) s = .next t ∧
      RegisterResult i (if 8 ≤ (s.reg j).toNat then 0 else (s.reg i).toNat / 2 ^ (s.reg j).toNat) 3 s t

/-- CMP sets FL by the unsigned comparison of x[a] with x[b], marks it written, and changes nothing else but pc. -/
def Obligations.CmpSetsFlag : Prop :=
  ∀ (s : State) (a b : Byte) (i j : Fin 8), a.toNat = i.val → b.toNat = j.val →
    ∃ t, exec (.cmp a b) s = .next t ∧
      (t.fl = .G ↔ (s.reg i).toNat > (s.reg j).toNat) ∧ (t.fl = .L ↔ (s.reg i).toNat < (s.reg j).toNat) ∧
      (t.fl = .E ↔ s.reg i = s.reg j) ∧ t.flWritten = true ∧ t.pc = s.pc + 3 ∧ KeepsMemory s t ∧
      KeepsRegistersBut [] s t ∧ KeepsOutput s t ∧ KeepsRunState s t

/-! ### Data movement, output, stack, halt -/

/-- LDI completes on all registers and immediates. -/
def Obligations.LdiLoadsImmediate : Prop :=
  ∀ (s : State) (a imm : Byte) (i : Fin 8), a.toNat = i.val →
    ∃ t, exec (.ldi a imm) s = .next t ∧ RegisterResult i imm.toNat 3 s t

/-- PRN appends the register's value to the output stream and changes nothing else but pc. -/
def Obligations.PrnEmitsRegister : Prop :=
  ∀ (s : State) (a : Byte) (i : Fin 8), a.toNat = i.val →
    ∃ t, exec (.prn a) s = .next t ∧ t.out = s.out ++ [s.reg i] ∧ t.pc = s.pc + 2 ∧ KeepsMemory s t ∧
      KeepsRegistersBut [] s t ∧ KeepsFlags s t ∧ KeepsRunState s t

/-- PUSH with SP ≠ 0 decrements SP and stores the register, as it is after the decrement, at the new SP. -/
def Obligations.PushStoresAtNewSp : Prop :=
  ∀ (s : State) (a : Byte) (i : Fin 8), a.toNat = i.val → s.sp ≠ 0 → s.mem.wf = true →
    ∃ t, exec (.push a) s = .next t ∧ t.sp.toNat = s.sp.toNat - 1 ∧ t.mem.read (s.sp.toNat - 1) = t.reg i ∧
      t.pc = s.pc + 2 ∧ OnlyStackStore (s.sp.toNat - 1) s t

/-- POP loads the byte at SP and increments SP; POP R7 ends with the popped byte plus one. Memory keeps the popped byte. -/
def Obligations.PopLoadsFromSp : Prop :=
  ∀ (s : State) (a : Byte) (i : Fin 8), a.toNat = i.val →
    (i ≠ spIndex → s.sp ≠ 255 →
      ∃ t, exec (.pop a) s = .next t ∧ t.reg i = s.mem.read s.sp.toNat ∧ registerWritten t i = true ∧
        t.sp.toNat = s.sp.toNat + 1 ∧ t.pc = s.pc + 2 ∧ OnlyRegisters [i, spIndex] s t) ∧
    (i = spIndex → s.mem.read s.sp.toNat ≠ 255 →
      ∃ t, exec (.pop a) s = .next t ∧ t.sp.toNat = (s.mem.read s.sp.toNat).toNat + 1 ∧ t.pc = s.pc + 2 ∧
        OnlyRegisters [spIndex] s t)

/-- R211: HLT leaves HALTED and changes nothing else, pc included; from a state of a run there is no fault record, code 0. -/
def Obligations.HltHalts : Prop :=
  ∀ s : State,
    exec .hlt s = .next { s with run := .halted } ∧
    (s.Inv → s.run = .running → ∃ t, exec .hlt s = .next t ∧ t.status = ⟨.halted, 0, none⟩)

/-! ### Control flow -/

/-- JMP sets pc to the register's value and changes nothing else. -/
def Obligations.JmpJumps : Prop :=
  ∀ (s : State) (a : Byte) (i : Fin 8), a.toNat = i.val →
    ∃ t, exec (.jmp a) s = .next t ∧ t.pc = (s.reg i).toNat ∧ OnlyRegisters [] s t

/-- JEQ is taken exactly when FL is E, JNE exactly when it is not; untaken, pc advances by exactly 2; nothing else
changes. -/
def Obligations.ConditionalJumps : Prop :=
  ∀ (s : State) (a : Byte) (i : Fin 8), a.toNat = i.val →
    (∃ t, exec (.jeq a) s = .next t ∧ t.pc = (if s.fl = .E then (s.reg i).toNat else s.pc + 2) ∧
      OnlyRegisters [] s t) ∧
    ∃ t, exec (.jne a) s = .next t ∧ t.pc = (if s.fl = .E then s.pc + 2 else (s.reg i).toNat) ∧ OnlyRegisters [] s t

/-- CALL with SP ≠ 0 pushes the return address p + 2 and jumps to the register, R7 being read after the push. -/
def Obligations.CallPushesReturnAddress : Prop :=
  ∀ (s : State) (a : Byte) (i : Fin 8), a.toNat = i.val → s.sp ≠ 0 → s.mem.wf = true → s.pc ≤ 253 →
    ∃ t, exec (.call a) s = .next t ∧ t.sp.toNat = s.sp.toNat - 1 ∧
      (t.mem.read (s.sp.toNat - 1)).toNat = s.pc + 2 ∧
      t.pc = (if i = spIndex then s.sp.toNat - 1 else (s.reg i).toNat) ∧ OnlyStackStore (s.sp.toNat - 1) s t

/-- RET with SP ≠ 255 pops the byte at SP into pc and increments SP. -/
def Obligations.RetPopsPc : Prop :=
  ∀ s : State, s.sp ≠ 255 →
    ∃ t, exec .ret s = .next t ∧ t.pc = (s.mem.read s.sp.toNat).toNat ∧ t.sp.toNat = s.sp.toNat + 1 ∧
      OnlyRegisters [spIndex] s t

/-! ### Stack bounds and the R7 corner cases -/

/-- R205: PUSH and CALL at SP = 0, and POP and RET where the R7 value about to be incremented is 255, raise `StackBounds`
and move nothing. -/
def Obligations.StackBoundsRaised : Prop :=
  ∀ (s : State) (a : Byte) (i : Fin 8), a.toNat = i.val →
    (s.sp = 0 → (∃ t, exec (.push a) s = .next t ∧ FaultedFrom .stackBounds s t) ∧
      ∃ t, exec (.call a) s = .next t ∧ FaultedFrom .stackBounds s t) ∧
    (s.sp = 255 → (∃ t, exec .ret s = .next t ∧ FaultedFrom .stackBounds s t) ∧
      (i ≠ spIndex → ∃ t, exec (.pop a) s = .next t ∧ FaultedFrom .stackBounds s t)) ∧
    (i = spIndex → s.mem.read s.sp.toNat = 255 → ∃ t, exec (.pop a) s = .next t ∧ FaultedFrom .stackBounds s t)

/-- R234: PUSH R7 stores the decremented SP, POP R7 ends with the popped byte plus one, CALL R7 jumps to the decremented SP,
where the pushed return address lies. -/
def Obligations.StackPointerOperandIsSequential : Prop :=
  ∀ s : State, s.mem.wf = true →
    (s.sp ≠ 0 → ∃ t, exec (.push 7) s = .next t ∧ (t.mem.read (s.sp.toNat - 1)).toNat = s.sp.toNat - 1) ∧
    (s.mem.read s.sp.toNat ≠ 255 →
      ∃ t, exec (.pop 7) s = .next t ∧ (t.reg 7).toNat = (s.mem.read s.sp.toNat).toNat + 1) ∧
    (s.sp ≠ 0 → s.pc ≤ 253 →
      ∃ t, exec (.call 7) s = .next t ∧ t.pc = s.sp.toNat - 1 ∧ (t.mem.read t.pc).toNat = s.pc + 2)

/-- PUSH of a register other than R7, anything that leaves SP and the pushed byte, then POP of it: the register and SP are
as before the PUSH. -/
def Obligations.PushThenPopRestores : Prop :=
  ∀ (s t u : State) (a : Byte) (i : Fin 8), a.toNat = i.val → i ≠ spIndex → s.mem.wf = true → s.sp ≠ 0 →
    exec (.push a) s = .next t → u.sp = t.sp → u.mem.read u.sp.toNat = t.mem.read t.sp.toNat →
      ∃ v, exec (.pop a) u = .next v ∧ v.reg i = s.reg i ∧ v.sp = s.sp

/-- CALL, a subroutine that leaves SP and the pushed byte as it found them, then RET: execution goes on at the instruction
after the CALL, with SP as before it. -/
def Obligations.CallThenRetReturns : Prop :=
  ∀ (s t u : State) (a : Byte) (i : Fin 8), a.toNat = i.val → s.mem.wf = true → s.sp ≠ 0 → s.pc ≤ 253 →
    exec (.call a) s = .next t → u.sp = t.sp → u.mem.read u.sp.toNat = t.mem.read t.sp.toNat →
      ∃ v, exec .ret u = .next v ∧ v.pc = s.pc + 2 ∧ v.sp = s.sp

/-- A PUSH into the bytes of the next instruction is seen by the next fetch. -/
def Obligations.CodeStoreSeenByNextFetch : Prop :=
  ∀ (map : OpcodeMap) (s : State) (a : Byte) (i : Fin 8) (rest : List Byte), s.run = .running → s.mem.wf = true →
    s.pc ≤ 251 → decodeWith map [s.mem.read s.pc, s.mem.read (s.pc + 1), s.mem.read (s.pc + 2)] = .ok (.push a, rest) →
    a.toNat = i.val → i ≠ spIndex → s.sp.toNat = s.pc + 3 →
      ∃ t x y, stepWith map s = .next t ∧ t.pc = s.pc + 2 ∧ fetch t = .ok (s.reg i, x, y)

/-- A JMP to its own address never leaves RUNNING: the cycle answers the state it began in. -/
def Obligations.JumpToSelfLoops : Prop :=
  ∀ (map : OpcodeMap), map.Admissible → ∀ (s : State) (i : Fin 8), s.run = .running → s.pc ≤ 253 →
    s.mem.read s.pc = map .jmp → (s.mem.read (s.pc + 1)).toNat = i.val → (s.reg i).toNat = s.pc →
      stepWith map s = .next s

/-! ### Whole-machine rules -/

/-- Every cycle keeps the invariant. -/
def Obligations.StepKeepsInvariant : Prop :=
  ∀ (map : OpcodeMap) (s t : State), s.Inv → stepWith map s = .next t → t.Inv

/-- HALTED is reached only by executing the halt instruction, which changes nothing else. -/
def Obligations.HaltedOnlyByHlt : Prop :=
  ∀ (map : OpcodeMap), map.Admissible → ∀ s t : State, stepWith map s = .next t → t.run = .halted →
    s.mem.read s.pc = map .hlt ∧ t = { s with run := .halted }

/-- Only CMP writes FL. -/
def Obligations.FlagsChangeOnlyByCmp : Prop :=
  ∀ (map : OpcodeMap), map.Admissible → ∀ s t : State, stepWith map s = .next t → ¬KeepsFlags s t →
    s.mem.read s.pc = map .cmp

/-- A cycle leaves the output stream or, by PRN alone, appends the one value of the register PRN names. -/
def Obligations.OutputGrowsOnlyByPrn : Prop :=
  ∀ (map : OpcodeMap), map.Admissible → ∀ s t : State, stepWith map s = .next t → t.out ≠ s.out →
    s.mem.read s.pc = map .prn ∧ ∃ i : Fin 8, (s.mem.read (s.pc + 1)).toNat = i.val ∧ t.out = s.out ++ [s.reg i]

/-- A cycle changes at most one byte of memory, the one just below SP, and only by PUSH or CALL. -/
def Obligations.MemoryChangesOnlyByStackStore : Prop :=
  ∀ (map : OpcodeMap), map.Admissible → ∀ (s t : State) (adr : Nat), stepWith map s = .next t →
    t.mem.read adr ≠ s.mem.read adr →
    (s.mem.read s.pc = map .push ∨ s.mem.read s.pc = map .call) ∧ adr + 1 = s.sp.toNat

/-- A cycle changes no register but the one its first operand byte names, and R7 by PUSH, POP, CALL and RET; the named
register only by an instruction that has a destination register. -/
def Obligations.RegistersChangeByTable : Prop :=
  ∀ (map : OpcodeMap), map.Admissible → ∀ (s t : State) (r : Fin 8), stepWith map s = .next t → t.reg r ≠ s.reg r →
    (r = spIndex ∧ s.mem.read s.pc ∈ ([.push, .pop, .call, .ret] : List Mnemonic).map map) ∨
    ((s.mem.read (s.pc + 1)).toNat = r.val ∧
      s.mem.read s.pc ∈ ([.ldi, .pop, .add, .sub, .mul, .div, .mod, .inc, .dec, .and, .or, .xor, .not, .shl, .shr] :
        List Mnemonic).map map)

/-- R72: an instruction that goes on RUNNING and is not of the control-flow family (bit 4 clear) advances pc by its operand
count, bits 7:6 of its opcode, plus one. -/
def Obligations.PcAdvancesByOperandCount : Prop :=
  ∀ (map : OpcodeMap) (s t : State), stepWith map s = .next t → t.run = .running → (s.mem.read s.pc).getLsbD 4 = false →
    t.pc = s.pc + (s.mem.read s.pc).toNat / 64 + 1

/-! ### The model-only faults (log 1: the checked step, not `step`, raises them) -/

/-- In the checked step's meaning, reading an unwritten register raises `UnwrittenRegister`, operand a before operand b, and
a jump on unwritten flags raises `UnwrittenFlags`. -/
def Obligations.CheckedStepRaisesUnwritten : Prop :=
  ∀ (s : State) (a : Byte) (i : Fin 8), a.toNat = i.val →
    (registerWritten s i = false →
      (∀ ins ∈ [Instr.prn a, .push a, .call a, .jmp a, .jeq a, .jne a, .inc a, .dec a, .not a],
        ∃ t, execChecked ins s = .next t ∧ FaultedFrom .unwrittenRegister s t) ∧
      ∀ b, ∀ ins ∈ [Instr.add a b, .sub a b, .mul a b, .div a b, .mod a b, .cmp a b, .and a b, .or a b, .xor a b,
          .shl a b, .shr a b],
        ∃ t, execChecked ins s = .next t ∧ FaultedFrom .unwrittenRegister s t) ∧
    (registerWritten s i = true →
      (∀ (b : Byte) (j : Fin 8), b.toNat = j.val → registerWritten s j = false →
        ∀ ins ∈ [Instr.add a b, .sub a b, .mul a b, .div a b, .mod a b, .cmp a b, .and a b, .or a b, .xor a b,
            .shl a b, .shr a b],
          ∃ t, execChecked ins s = .next t ∧ FaultedFrom .unwrittenRegister s t) ∧
      (s.flWritten = false → ∀ ins ∈ [Instr.jeq a, .jne a],
        ∃ t, execChecked ins s = .next t ∧ FaultedFrom .unwrittenFlags s t))

/-- The checked step runs: a RUNNING state whose bytes at pc decode takes exactly the checked meaning of the instruction, and
that meaning is the instruction's own wherever everything it reads is written. -/
def Obligations.CheckedStepRunsDecodedInstruction : Prop :=
  (∀ (map : OpcodeMap) (s : State) (i : Instr) (rest : List Byte), s.run = .running → s.pc ≤ 253 →
    decodeWith map [s.mem.read s.pc, s.mem.read (s.pc + 1), s.mem.read (s.pc + 2)] = .ok (i, rest) →
      stepCheckedWith map s = execChecked i s) ∧
  ∀ (s : State) (i : Instr), ReadsOnlyWritten s i → execChecked i s = exec i s

/-- The checked step is the step but for the entry of a model-only fault, which it makes only where something the decoded
instruction reads is unwritten: it stops exactly where the step stops, and for the same reason; a next state of it is the
step's or the entry of a model-only fault; and it equals the step where nothing decodes and where the decoded instruction
reads only what is written. -/
def Obligations.CheckedStepAgreesWithStep : Prop :=
  ∀ (map : OpcodeMap) (s : State),
    (∀ f, stepCheckedWith map s = .fault f ↔ stepWith map s = .fault f) ∧
    (∀ t, stepCheckedWith map s = .next t →
      stepWith map s = .next t ∨ FaultedFrom .unwrittenRegister s t ∨ FaultedFrom .unwrittenFlags s t) ∧
    ((∀ i, fetchDecodeWith map s = .ok i → ReadsOnlyWritten s i) → stepCheckedWith map s = stepWith map s)

/-- What R0 to R6 and FL hold before anything has written them cannot be seen through the checked step: two states that
agree on everything written answer alike, and stay in agreement. So no claim about the checked step rests on the reset
values the model chose (logs 1, 2). -/
def Obligations.UnwrittenValuesCannotMatter : Prop :=
  ∀ (map : OpcodeMap) (s t : State), AgreeOnWritten s t →
    (∀ s', stepCheckedWith map s = .next s' → ∃ t', stepCheckedWith map t = .next t' ∧ AgreeOnWritten s' t') ∧
    ∀ f, stepCheckedWith map s = .fault f → stepCheckedWith map t = .fault f
end

