-- ==== Sys2Proof/Laws/Memory.lean ====
section
/-! SUPPORT. The laws of memory: a read after a write, and that every operation keeps the canonical form. -/

namespace Sys2Proof.Machine

@[simp] theorem Memory.read_nil (a : Nat) : Memory.read [] a = 0 := rfl

theorem Memory.read_cons (k : Nat) (v : Byte) (m : Memory) (a : Nat) :
    Memory.read ((k, v) :: m) a = if a = k then v else Memory.read m a := rfl

theorem Memory.write_cons (k : Nat) (w : Byte) (m : Memory) (a : Nat) (v : Byte) :
    Memory.write ((k, w) :: m) a v =
      if a < k then Memory.consCell a v ((k, w) :: m)
      else if a = k then Memory.consCell a v m
      else (k, w) :: Memory.write m a v := rfl

/-- The canonical form from `lo` on, entry by entry. -/
theorem Memory.wfFrom_cons {lo k : Nat} {v : Byte} {m : Memory} :
    Memory.wfFrom lo ((k, v) :: m) = true ↔ lo ≤ k ∧ k ≤ 255 ∧ v ≠ 0 ∧ Memory.wfFrom (k + 1) m = true := by
  simp [Memory.wfFrom, and_assoc]

/-- The canonical form from a higher address is the canonical form from a lower one. -/
theorem Memory.wfFrom_mono {lo lo' : Nat} (h : lo' ≤ lo) {m : Memory} (hm : Memory.wfFrom lo m = true) :
    Memory.wfFrom lo' m = true := by
  cases m with
  | nil => rfl
  | cons c m =>
    obtain ⟨k, v⟩ := c
    rw [Memory.wfFrom_cons] at hm ⊢
    exact ⟨le_trans h hm.1, hm.2⟩

/-- Below the first address it lists, a canonical memory reads 0. -/
theorem Memory.read_eq_zero_of_lt {lo a : Nat} {m : Memory} (hm : Memory.wfFrom lo m = true) (h : a < lo) :
    Memory.read m a = 0 := by
  induction m generalizing lo with
  | nil => rfl
  | cons c m ih =>
    obtain ⟨k, v⟩ := c
    obtain ⟨hlo, -, -, hrest⟩ := Memory.wfFrom_cons.1 hm
    rw [Memory.read_cons, if_neg (by omega)]
    exact ih hrest (by omega)

/-- A canonical memory lists nothing above 255. -/
theorem Memory.read_eq_zero_of_gt {lo a : Nat} {m : Memory} (hm : Memory.wfFrom lo m = true) (h : 255 < a) :
    Memory.read m a = 0 := by
  induction m generalizing lo with
  | nil => rfl
  | cons c m ih =>
    obtain ⟨k, v⟩ := c
    obtain ⟨-, hk, -, hrest⟩ := Memory.wfFrom_cons.1 hm
    rw [Memory.read_cons, if_neg (by omega)]
    exact ih hrest

theorem Memory.read_consCell_ne (a : Nat) (v : Byte) (m : Memory) {b : Nat} (h : b ≠ a) :
    Memory.read (Memory.consCell a v m) b = Memory.read m b := by
  unfold Memory.consCell
  split
  · rfl
  · rw [Memory.read_cons, if_neg h]

theorem Memory.read_consCell_self {lo a : Nat} (v : Byte) {m : Memory} (hm : Memory.wfFrom lo m = true) (h : a < lo) :
    Memory.read (Memory.consCell a v m) a = v := by
  unfold Memory.consCell
  split
  · next hv => rw [hv, Memory.read_eq_zero_of_lt hm h]
  · rw [Memory.read_cons, if_pos rfl]

/-- A write leaves every other address alone, in every memory. -/
theorem Memory.read_write_ne (m : Memory) (a : Nat) (v : Byte) {b : Nat} (h : b ≠ a) :
    (m.write a v).read b = m.read b := by
  induction m with
  | nil => exact Memory.read_consCell_ne a v [] h
  | cons c m ih =>
    obtain ⟨k, w⟩ := c
    rw [Memory.write_cons]
    split
    · exact Memory.read_consCell_ne a v _ h
    · split
      · next ha => rw [Memory.read_consCell_ne a v m h, Memory.read_cons, if_neg (ha ▸ h)]
      · simp only [Memory.read_cons, ih]

/-- A read of the written address gives the value written, in a canonical memory. -/
theorem Memory.read_write_self {m : Memory} (a : Nat) (v : Byte) {lo : Nat} (hm : Memory.wfFrom lo m = true) :
    (m.write a v).read a = v := by
  induction m generalizing lo with
  | nil => exact Memory.read_consCell_self (lo := a + 1) v rfl (by omega)
  | cons c m ih =>
    obtain ⟨k, w⟩ := c
    obtain ⟨hlo, hk, hw, hrest⟩ := Memory.wfFrom_cons.1 hm
    rw [Memory.write_cons]
    split
    · next ha => exact Memory.read_consCell_self v (Memory.wfFrom_cons.2 ⟨le_refl k, hk, hw, hrest⟩) ha
    · split
      · next ha => exact Memory.read_consCell_self v hrest (by omega)
      · next _ ha => rw [Memory.read_cons, if_neg ha, ih hrest]

theorem Memory.wfFrom_consCell {lo a : Nat} (v : Byte) {m : Memory} (hlo : lo ≤ a) (ha : a ≤ 255)
    (hm : Memory.wfFrom (a + 1) m = true) : Memory.wfFrom lo (Memory.consCell a v m) = true := by
  unfold Memory.consCell
  split
  · exact Memory.wfFrom_mono (by omega) hm
  · next hv => exact Memory.wfFrom_cons.2 ⟨hlo, ha, hv, hm⟩

theorem Memory.wfFrom_write {lo a : Nat} (v : Byte) {m : Memory} (hlo : lo ≤ a) (ha : a ≤ 255)
    (hm : Memory.wfFrom lo m = true) : Memory.wfFrom lo (m.write a v) = true := by
  induction m generalizing lo with
  | nil => exact Memory.wfFrom_consCell v hlo ha rfl
  | cons c m ih =>
    obtain ⟨k, w⟩ := c
    obtain ⟨hk0, hk, hw, hrest⟩ := Memory.wfFrom_cons.1 hm
    rw [Memory.write_cons]
    split
    · next hak => exact Memory.wfFrom_consCell v hlo ha (Memory.wfFrom_cons.2 ⟨hak, hk, hw, hrest⟩)
    · split
      · next hak => exact Memory.wfFrom_consCell v hlo ha (hak ▸ hrest)
      · exact Memory.wfFrom_cons.2 ⟨hk0, hk, hw, ih (by omega) hrest⟩

/-- A write inside the address space keeps the canonical form. -/
theorem Memory.wf_write {m : Memory} {a : Nat} (v : Byte) (ha : a ≤ 255) (hm : m.wf = true) : (m.write a v).wf = true :=
  Memory.wfFrom_write v (Nat.zero_le a) ha hm

/-- Storing a list of bytes inside the address space keeps the canonical form. -/
theorem Memory.wf_writeList {m : Memory} {a : Nat} (vs : List Byte) (ha : a + vs.length ≤ 256) (hm : m.wf = true) :
    (m.writeList a vs).wf = true := by
  induction vs generalizing m a with
  | nil => exact hm
  | cons v vs ih =>
    rw [List.length_cons] at ha
    exact ih (by omega) (Memory.wf_write v (by omega) hm)

/-- Reading after storing a list of bytes: the stored byte inside the list's range, the old byte elsewhere. -/
theorem Memory.read_writeList {m : Memory} {a : Nat} (vs : List Byte) (ha : a + vs.length ≤ 256) (hm : m.wf = true)
    (b : Nat) : (m.writeList a vs).read b = if h : a ≤ b ∧ b - a < vs.length then vs[b - a]'h.2 else m.read b := by
  induction vs generalizing m a with
  | nil => simp [Memory.writeList]
  | cons v vs ih =>
    rw [List.length_cons] at ha
    rw [Memory.writeList, ih (by omega) (Memory.wf_write v (by omega) hm)]
    by_cases hab : b = a
    · subst hab
      simp [Memory.read_write_self b v hm]
    · by_cases h : a + 1 ≤ b ∧ b - (a + 1) < vs.length
      · have e : b - a = b - (a + 1) + 1 := by omega
        have h' : a ≤ b ∧ b - a < (v :: vs).length := by rw [List.length_cons]; omega
        rw [dif_pos h, dif_pos h']
        simp [e]
      · have h' : ¬(a ≤ b ∧ b - a < (v :: vs).length) := by rw [List.length_cons]; omega
        rw [dif_neg h, dif_neg h', Memory.read_write_ne m a v hab]

/-- Two canonical memories that read alike at every address are the same list. -/
theorem Memory.ext_of_read {lo : Nat} {m m' : Memory} (hm : Memory.wfFrom lo m = true) (hm' : Memory.wfFrom lo m' = true)
    (h : ∀ a, m.read a = m'.read a) : m = m' := by
  induction m generalizing lo m' with
  | nil =>
    cases m' with
    | nil => rfl
    | cons c m' =>
      obtain ⟨k, v⟩ := c
      have := h k
      rw [Memory.read_cons, if_pos rfl] at this
      exact absurd this.symm (Memory.wfFrom_cons.1 hm').2.2.1
  | cons c m ih =>
    obtain ⟨k, v⟩ := c
    obtain ⟨h1, h2, h3, h4⟩ := Memory.wfFrom_cons.1 hm
    cases m' with
    | nil =>
      have := h k
      rw [Memory.read_cons, if_pos rfl] at this
      exact absurd this h3
    | cons c' m' =>
      obtain ⟨k', v'⟩ := c'
      obtain ⟨h1', h2', h3', h4'⟩ := Memory.wfFrom_cons.1 hm'
      have hkk : k = k' := by
        by_contra hne
        rcases Nat.lt_or_gt_of_ne hne with hlt | hgt
        · have := h k
          rw [Memory.read_cons, if_pos rfl, Memory.read_cons, if_neg hne, Memory.read_eq_zero_of_lt h4' (by omega)] at this
          exact h3 this
        · have := h k'
          rw [Memory.read_cons, if_neg (Ne.symm hne), Memory.read_cons, if_pos rfl,
            Memory.read_eq_zero_of_lt h4 (by omega)] at this
          exact h3' this.symm
      subst hkk
      have hv := h k
      rw [Memory.read_cons, if_pos rfl, Memory.read_cons, if_pos rfl] at hv
      subst hv
      congr 1
      refine ih h4 h4' fun a => ?_
      by_cases ha : a = k
      · rw [ha, Memory.read_eq_zero_of_lt h4 (by omega), Memory.read_eq_zero_of_lt h4' (by omega)]
      · have := h a
        rwa [Memory.read_cons, if_neg ha, Memory.read_cons, if_neg ha] at this

end Sys2Proof.Machine
end

