-- ==== Sys2Proof/Laws/State.lean ====
section
/-! SUPPORT. One lemma per field per update of the state, and how the register accessors see each update, so that no later
proof unfolds a record update. -/

namespace Sys2Proof.Machine

variable (s : State)

/-! ### `setReg` -/

@[simp] theorem State.setReg_mem (i : Fin 8) (v : Nat) : (s.setReg i v).mem = s.mem := rfl
@[simp] theorem State.setReg_regs (i : Fin 8) (v : Nat) : (s.setReg i v).regs = s.regs.set i (BitVec.ofNat 8 v) := rfl
@[simp] theorem State.setReg_pc (i : Fin 8) (v : Nat) : (s.setReg i v).pc = s.pc := rfl
@[simp] theorem State.setReg_fl (i : Fin 8) (v : Nat) : (s.setReg i v).fl = s.fl := rfl
@[simp] theorem State.setReg_run (i : Fin 8) (v : Nat) : (s.setReg i v).run = s.run := rfl
@[simp] theorem State.setReg_fault (i : Fin 8) (v : Nat) : (s.setReg i v).fault = s.fault := rfl
@[simp] theorem State.setReg_out (i : Fin 8) (v : Nat) : (s.setReg i v).out = s.out := rfl
@[simp] theorem State.setReg_written (i : Fin 8) (v : Nat) : (s.setReg i v).written = markWritten s.written i := rfl
@[simp] theorem State.setReg_flWritten (i : Fin 8) (v : Nat) : (s.setReg i v).flWritten = s.flWritten := rfl

/-! ### `setPc` -/

@[simp] theorem State.setPc_mem (p : Nat) : (s.setPc p).mem = s.mem := rfl
@[simp] theorem State.setPc_regs (p : Nat) : (s.setPc p).regs = s.regs := rfl
@[simp] theorem State.setPc_pc (p : Nat) : (s.setPc p).pc = p := rfl
@[simp] theorem State.setPc_fl (p : Nat) : (s.setPc p).fl = s.fl := rfl
@[simp] theorem State.setPc_run (p : Nat) : (s.setPc p).run = s.run := rfl
@[simp] theorem State.setPc_fault (p : Nat) : (s.setPc p).fault = s.fault := rfl
@[simp] theorem State.setPc_out (p : Nat) : (s.setPc p).out = s.out := rfl
@[simp] theorem State.setPc_written (p : Nat) : (s.setPc p).written = s.written := rfl
@[simp] theorem State.setPc_flWritten (p : Nat) : (s.setPc p).flWritten = s.flWritten := rfl
@[simp] theorem State.setPc_reg (p : Nat) (r : Fin 8) : (s.setPc p).reg r = s.reg r := rfl
@[simp] theorem State.setPc_sp (p : Nat) : (s.setPc p).sp = s.sp := rfl
@[simp] theorem registerWritten_setPc (p : Nat) (r : Fin 8) :
    registerWritten (s.setPc p) r = registerWritten s r := rfl

/-! ### `advance` -/

@[simp] theorem State.advance_mem (n : Nat) : (s.advance n).mem = s.mem := rfl
@[simp] theorem State.advance_regs (n : Nat) : (s.advance n).regs = s.regs := rfl
@[simp] theorem State.advance_pc (n : Nat) : (s.advance n).pc = s.pc + n + 1 := rfl
@[simp] theorem State.advance_fl (n : Nat) : (s.advance n).fl = s.fl := rfl
@[simp] theorem State.advance_run (n : Nat) : (s.advance n).run = s.run := rfl
@[simp] theorem State.advance_fault (n : Nat) : (s.advance n).fault = s.fault := rfl
@[simp] theorem State.advance_out (n : Nat) : (s.advance n).out = s.out := rfl
@[simp] theorem State.advance_written (n : Nat) : (s.advance n).written = s.written := rfl
@[simp] theorem State.advance_flWritten (n : Nat) : (s.advance n).flWritten = s.flWritten := rfl
@[simp] theorem State.advance_reg (n : Nat) (r : Fin 8) : (s.advance n).reg r = s.reg r := rfl
@[simp] theorem State.advance_sp (n : Nat) : (s.advance n).sp = s.sp := rfl
@[simp] theorem registerWritten_advance (n : Nat) (r : Fin 8) :
    registerWritten (s.advance n) r = registerWritten s r := rfl

/-! ### `setFlag` -/

@[simp] theorem State.setFlag_mem (f : Flag) : (s.setFlag f).mem = s.mem := rfl
@[simp] theorem State.setFlag_regs (f : Flag) : (s.setFlag f).regs = s.regs := rfl
@[simp] theorem State.setFlag_pc (f : Flag) : (s.setFlag f).pc = s.pc := rfl
@[simp] theorem State.setFlag_fl (f : Flag) : (s.setFlag f).fl = f := rfl
@[simp] theorem State.setFlag_run (f : Flag) : (s.setFlag f).run = s.run := rfl
@[simp] theorem State.setFlag_fault (f : Flag) : (s.setFlag f).fault = s.fault := rfl
@[simp] theorem State.setFlag_out (f : Flag) : (s.setFlag f).out = s.out := rfl
@[simp] theorem State.setFlag_written (f : Flag) : (s.setFlag f).written = s.written := rfl
@[simp] theorem State.setFlag_flWritten (f : Flag) : (s.setFlag f).flWritten = true := rfl
@[simp] theorem State.setFlag_reg (f : Flag) (r : Fin 8) : (s.setFlag f).reg r = s.reg r := rfl
@[simp] theorem State.setFlag_sp (f : Flag) : (s.setFlag f).sp = s.sp := rfl
@[simp] theorem registerWritten_setFlag (f : Flag) (r : Fin 8) :
    registerWritten (s.setFlag f) r = registerWritten s r := rfl

/-! ### `emit` -/

@[simp] theorem State.emit_mem (v : Byte) : (s.emit v).mem = s.mem := rfl
@[simp] theorem State.emit_regs (v : Byte) : (s.emit v).regs = s.regs := rfl
@[simp] theorem State.emit_pc (v : Byte) : (s.emit v).pc = s.pc := rfl
@[simp] theorem State.emit_fl (v : Byte) : (s.emit v).fl = s.fl := rfl
@[simp] theorem State.emit_run (v : Byte) : (s.emit v).run = s.run := rfl
@[simp] theorem State.emit_fault (v : Byte) : (s.emit v).fault = s.fault := rfl
@[simp] theorem State.emit_out (v : Byte) : (s.emit v).out = s.out ++ [v] := rfl
@[simp] theorem State.emit_written (v : Byte) : (s.emit v).written = s.written := rfl
@[simp] theorem State.emit_flWritten (v : Byte) : (s.emit v).flWritten = s.flWritten := rfl
@[simp] theorem State.emit_reg (v : Byte) (r : Fin 8) : (s.emit v).reg r = s.reg r := rfl
@[simp] theorem State.emit_sp (v : Byte) : (s.emit v).sp = s.sp := rfl
@[simp] theorem registerWritten_emit (v : Byte) (r : Fin 8) :
    registerWritten (s.emit v) r = registerWritten s r := rfl

/-! ### `halt` -/

@[simp] theorem State.halt_mem : s.halt.mem = s.mem := rfl
@[simp] theorem State.halt_regs : s.halt.regs = s.regs := rfl
@[simp] theorem State.halt_pc : s.halt.pc = s.pc := rfl
@[simp] theorem State.halt_fl : s.halt.fl = s.fl := rfl
@[simp] theorem State.halt_run : s.halt.run = .halted := rfl
@[simp] theorem State.halt_fault : s.halt.fault = s.fault := rfl
@[simp] theorem State.halt_out : s.halt.out = s.out := rfl
@[simp] theorem State.halt_written : s.halt.written = s.written := rfl
@[simp] theorem State.halt_flWritten : s.halt.flWritten = s.flWritten := rfl
@[simp] theorem State.halt_reg (r : Fin 8) : s.halt.reg r = s.reg r := rfl
@[simp] theorem State.halt_sp : s.halt.sp = s.sp := rfl
@[simp] theorem registerWritten_halt (r : Fin 8) :
    registerWritten s.halt r = registerWritten s r := rfl

/-! ### `enterFault` -/

@[simp] theorem State.enterFault_mem (k : FaultKind) : (s.enterFault k).mem = s.mem := rfl
@[simp] theorem State.enterFault_regs (k : FaultKind) : (s.enterFault k).regs = s.regs := rfl
@[simp] theorem State.enterFault_pc (k : FaultKind) : (s.enterFault k).pc = s.pc := rfl
@[simp] theorem State.enterFault_fl (k : FaultKind) : (s.enterFault k).fl = s.fl := rfl
@[simp] theorem State.enterFault_run (k : FaultKind) : (s.enterFault k).run = .faulted := rfl
@[simp] theorem State.enterFault_fault (k : FaultKind) : (s.enterFault k).fault = some ⟨k, s.pc, s.opcodeAtPc⟩ := rfl
@[simp] theorem State.enterFault_out (k : FaultKind) : (s.enterFault k).out = s.out := rfl
@[simp] theorem State.enterFault_written (k : FaultKind) : (s.enterFault k).written = s.written := rfl
@[simp] theorem State.enterFault_flWritten (k : FaultKind) : (s.enterFault k).flWritten = s.flWritten := rfl
@[simp] theorem State.enterFault_reg (k : FaultKind) (r : Fin 8) : (s.enterFault k).reg r = s.reg r := rfl
@[simp] theorem State.enterFault_sp (k : FaultKind) : (s.enterFault k).sp = s.sp := rfl
@[simp] theorem registerWritten_enterFault (k : FaultKind) (r : Fin 8) :
    registerWritten (s.enterFault k) r = registerWritten s r := rfl

/-! ### `setMem` -/

@[simp] theorem State.setMem_mem (m : Memory) : (s.setMem m).mem = m := rfl
@[simp] theorem State.setMem_regs (m : Memory) : (s.setMem m).regs = s.regs := rfl
@[simp] theorem State.setMem_pc (m : Memory) : (s.setMem m).pc = s.pc := rfl
@[simp] theorem State.setMem_fl (m : Memory) : (s.setMem m).fl = s.fl := rfl
@[simp] theorem State.setMem_run (m : Memory) : (s.setMem m).run = s.run := rfl
@[simp] theorem State.setMem_fault (m : Memory) : (s.setMem m).fault = s.fault := rfl
@[simp] theorem State.setMem_out (m : Memory) : (s.setMem m).out = s.out := rfl
@[simp] theorem State.setMem_written (m : Memory) : (s.setMem m).written = s.written := rfl
@[simp] theorem State.setMem_flWritten (m : Memory) : (s.setMem m).flWritten = s.flWritten := rfl
@[simp] theorem State.setMem_reg (m : Memory) (r : Fin 8) : (s.setMem m).reg r = s.reg r := rfl
@[simp] theorem State.setMem_sp (m : Memory) : (s.setMem m).sp = s.sp := rfl
@[simp] theorem registerWritten_setMem (m : Memory) (r : Fin 8) :
    registerWritten (s.setMem m) r = registerWritten s r := rfl

/-! ### Registers -/

theorem State.reg_setReg (i : Fin 8) (v : Nat) (r : Fin 8) :
    (s.setReg i v).reg r = if r = i then BitVec.ofNat 8 v else s.reg r := by
  by_cases h : r = i
  · subst h; simp [State.reg, State.setReg]
  · have h' : i.val ≠ r.val := fun e => h (Fin.ext e.symm)
    simp [State.reg, State.setReg, h, h']

@[simp] theorem State.reg_setReg_self (i : Fin 8) (v : Nat) : (s.setReg i v).reg i = BitVec.ofNat 8 v := by
  simp [State.reg_setReg]

theorem State.reg_setReg_ne (i : Fin 8) (v : Nat) {r : Fin 8} (h : r ≠ i) : (s.setReg i v).reg r = s.reg r := by
  simp [State.reg_setReg, h]

@[simp] theorem State.sp_setReg_spIndex (v : Nat) : (s.setReg spIndex v).sp = BitVec.ofNat 8 v :=
  s.reg_setReg_self spIndex v

theorem State.sp_setReg_ne (i : Fin 8) (v : Nat) (h : i ≠ spIndex) : (s.setReg i v).sp = s.sp :=
  s.reg_setReg_ne i v (Ne.symm h)

/-- Writing a register marks it written and moves no other written bit. -/
theorem registerWritten_setReg (i : Fin 8) (v : Nat) (r : Fin 8) :
    registerWritten (s.setReg i v) r = (registerWritten s r || decide (r = i)) := by
  by_cases h : r = i
  · subst h
    by_cases h7 : r.val < 7 <;> simp [registerWritten, State.setReg, markWritten, h7]
  · have h' : i.val ≠ r.val := fun e => h (Fin.ext e.symm)
    by_cases h7 : i.val < 7 <;> by_cases r7 : r.val < 7 <;>
      simp [registerWritten, State.setReg, markWritten, h7, r7, h, h']

/-- R7 counts as written in every state (R38). -/
@[simp] theorem registerWritten_spIndex : registerWritten s spIndex = true := rfl

end Sys2Proof.Machine
end

