-- ==== Sys2Proof/Laws/Ops.lean ====
section
/-! SUPPORT. One lemma per shared operation, saying everything it can answer; the meanings' lemmas cite these. -/

namespace Sys2Proof.Machine

variable {s t : State} {a b : Byte} {i j : Fin 8} {k : FaultKind}

/-! ### Operand checks -/

theorem registerIndex_of_eq (h : a.toNat = i.val) : registerIndex a = .ok i := by
  simp [registerIndex, h]

theorem registerIndex_of_gt (h : 7 < a.toNat) : registerIndex a = .error .outOfBounds := by
  have hlt : ¬a.toNat < 8 := by omega
  simp [registerIndex, hlt]

/-- Every operand byte either names a register or is above 7. -/
theorem register_or_gt (a : Byte) : (∃ i : Fin 8, a.toNat = i.val) ∨ 7 < a.toNat := by
  by_cases h : a.toNat < 8
  · exact .inl ⟨⟨a.toNat, h⟩, rfl⟩
  · exact .inr (by omega)

theorem checkSrc_of_eq (h : a.toNat = i.val) : checkSrc a = .ok i := registerIndex_of_eq h

theorem checkSrc_of_gt (h : 7 < a.toNat) : checkSrc a = .error .outOfBounds := registerIndex_of_gt h

theorem checkDst_of_eq (h : a.toNat = i.val) : checkDst a = .ok i := registerIndex_of_eq h

theorem checkDst_of_gt (h : 7 < a.toNat) : checkDst a = .error .outOfBounds := registerIndex_of_gt h

/-! ### Memory accessors and the stack pointer -/

theorem memRead_of_le (s : State) {p : Nat} (h : p ≤ 255) : memRead s p = .ok (s.mem.read p) := by
  simp [memRead, Nat.not_lt.2 h]

theorem memRead_of_gt (s : State) {p : Nat} (h : 255 < p) : memRead s p = .error .outOfBounds := by
  simp [memRead, h]

theorem memRead_byte (s : State) (v : Byte) : memRead s v.toNat = .ok (s.mem.read v.toNat) :=
  memRead_of_le s (by omega)

theorem memWrite_byte (s : State) (p v : Byte) : memWrite s p.toNat v = .ok (s.setMem (s.mem.write p.toNat v)) := by
  have h : ¬255 < p.toNat := by omega
  simp [memWrite, h]

theorem decrementSp_of_zero (h : s.sp = 0) : decrementSp s = .error .stackBounds := by simp [decrementSp, h]

theorem decrementSp_of_ne (h : s.sp ≠ 0) : decrementSp s = .ok (s.setReg spIndex (s.sp.toNat - 1)) := by
  unfold decrementSp
  exact if_neg h

theorem incrementSp_of_max (h : s.sp = 255) : incrementSp s = .error .stackBounds := by simp [incrementSp, h]

theorem incrementSp_of_ne (h : s.sp ≠ 255) : incrementSp s = .ok (s.setReg spIndex (s.sp.toNat + 1)) := by
  unfold incrementSp
  exact if_neg h

/-- After the decrement SP is one lower, without wrap. -/
theorem sp_decremented (s : State) : (s.setReg spIndex (s.sp.toNat - 1)).sp.toNat = s.sp.toNat - 1 := by
  rw [State.sp_setReg_spIndex, BitVec.toNat_ofNat]
  omega

/-! ### The shapes of the ALU and of the jumps -/

theorem aluBinary_ok (f : Byte → Byte → Nat) (ha : a.toNat = i.val) (hb : b.toNat = j.val) :
    aluBinary f a b s = .ok ((s.setReg i (f (s.reg i) (s.reg j))).advance 2) := by
  simp [aluBinary, checkSrc_of_eq ha, checkSrc_of_eq hb, bind, Except.bind]

theorem aluBinary_outOfBounds (f : Byte → Byte → Nat) (h : 7 < a.toNat ∨ 7 < b.toNat) :
    aluBinary f a b s = .error .outOfBounds := by
  rcases register_or_gt a with ⟨i, ha⟩ | ha
  · have hb : 7 < b.toNat := by omega
    simp [aluBinary, checkSrc_of_eq ha, checkSrc_of_gt hb, bind, Except.bind]
  · simp [aluBinary, checkSrc_of_gt ha, bind, Except.bind]

theorem aluDivide_ok (f : Byte → Byte → Nat) (ha : a.toNat = i.val) (hb : b.toNat = j.val) (h : s.reg j ≠ 0) :
    aluDivide f a b s = .ok ((s.setReg i (f (s.reg i) (s.reg j))).advance 2) := by
  simp only [aluDivide, checkSrc_of_eq ha, checkSrc_of_eq hb, bind, Except.bind, if_neg h]

theorem aluDivide_zero (f : Byte → Byte → Nat) (ha : a.toNat = i.val) (hb : b.toNat = j.val) (h : s.reg j = 0) :
    aluDivide f a b s = .error .divisionByZero := by
  simp [aluDivide, checkSrc_of_eq ha, checkSrc_of_eq hb, bind, Except.bind, h]

theorem aluDivide_outOfBounds (f : Byte → Byte → Nat) (h : 7 < a.toNat ∨ 7 < b.toNat) :
    aluDivide f a b s = .error .outOfBounds := by
  rcases register_or_gt a with ⟨i, ha⟩ | ha
  · have hb : 7 < b.toNat := by omega
    simp [aluDivide, checkSrc_of_eq ha, checkSrc_of_gt hb, bind, Except.bind]
  · simp [aluDivide, checkSrc_of_gt ha, bind, Except.bind]

theorem aluUnary_ok (f : Byte → Nat) (ha : a.toNat = i.val) :
    aluUnary f a s = .ok ((s.setReg i (f (s.reg i))).advance 1) := by
  simp [aluUnary, checkSrc_of_eq ha, bind, Except.bind]

theorem aluUnary_outOfBounds (f : Byte → Nat) (h : 7 < a.toNat) : aluUnary f a s = .error .outOfBounds := by
  simp [aluUnary, checkSrc_of_gt h, bind, Except.bind]

theorem jumpIf_ok (taken : Flag → Bool) (ha : a.toNat = i.val) :
    jumpIf taken a s = .ok (if taken s.fl then s.setPc (s.reg i).toNat else s.advance 1) := by
  simp [jumpIf, checkSrc_of_eq ha, bind, Except.bind]

theorem jumpIf_outOfBounds (taken : Flag → Bool) (h : 7 < a.toNat) : jumpIf taken a s = .error .outOfBounds := by
  simp [jumpIf, checkSrc_of_gt h, bind, Except.bind]

/-! ### Committing a cycle -/

@[simp] theorem commit_ok : commit s (.ok t) = .next t := rfl

@[simp] theorem commit_error : commit s (.error k) = .next (s.enterFault k) := rfl

end Sys2Proof.Machine
end

