-- ==== Sys2Proof/Laws/Exec.lean ====
section
/-! SUPPORT. Everything an instruction can do, said once: how each completes (`Completes`), what each raises (`Raises`), that
`exec` does exactly these (`exec_of_completes`, `exec_of_raises`, `exec_cases`), and that one of the two always applies. -/

namespace Sys2Proof.Machine

/-- SP after a push from `s`. -/
def State.pushed (s : State) : State := s.setReg spIndex (s.sp.toNat - 1)

/-- The state after pushing a byte from `s`, before pc is set. -/
def State.pushByte (s : State) (v : Byte) : State := s.pushed.setMem (s.mem.write s.pushed.sp.toNat v)

/-- How each instruction completes, with its guards. -/
inductive Completes (s : State) : Instr → State → Prop where
  | hlt : Completes s .hlt s.halt
  | ldi {a imm : Byte} {i : Fin 8} (ha : a.toNat = i.val) :
      Completes s (.ldi a imm) ((s.setReg i imm.toNat).advance 2)
  | prn {a : Byte} {i : Fin 8} (ha : a.toNat = i.val) : Completes s (.prn a) ((s.emit (s.reg i)).advance 1)
  | push {a : Byte} {i : Fin 8} (ha : a.toNat = i.val) (hsp : s.sp ≠ 0) :
      Completes s (.push a) ((s.pushByte (s.pushed.reg i)).advance 1)
  | pop {a : Byte} {i : Fin 8} (ha : a.toNat = i.val)
      (hsp : (s.setReg i (s.mem.read s.sp.toNat).toNat).sp ≠ 255) :
      Completes s (.pop a)
        (((s.setReg i (s.mem.read s.sp.toNat).toNat).setReg spIndex
          ((s.setReg i (s.mem.read s.sp.toNat).toNat).sp.toNat + 1)).advance 1)
  | ret (hsp : s.sp ≠ 255) :
      Completes s .ret ((s.setReg spIndex (s.sp.toNat + 1)).setPc (s.mem.read s.sp.toNat).toNat)
  | call {a : Byte} {i : Fin 8} (ha : a.toNat = i.val) (hsp : s.sp ≠ 0) :
      Completes s (.call a) ((s.pushByte (BitVec.ofNat 8 (s.pc + 2))).setPc (s.pushed.reg i).toNat)
  | jmp {a : Byte} {i : Fin 8} (ha : a.toNat = i.val) : Completes s (.jmp a) (s.setPc (s.reg i).toNat)
  | jeq {a : Byte} {i : Fin 8} (ha : a.toNat = i.val) :
      Completes s (.jeq a) (if s.fl.equal then s.setPc (s.reg i).toNat else s.advance 1)
  | jne {a : Byte} {i : Fin 8} (ha : a.toNat = i.val) :
      Completes s (.jne a) (if !s.fl.equal then s.setPc (s.reg i).toNat else s.advance 1)
  | add {a b : Byte} {i j : Fin 8} (ha : a.toNat = i.val) (hb : b.toNat = j.val) :
      Completes s (.add a b) ((s.setReg i (addResult (s.reg i) (s.reg j))).advance 2)
  | sub {a b : Byte} {i j : Fin 8} (ha : a.toNat = i.val) (hb : b.toNat = j.val) :
      Completes s (.sub a b) ((s.setReg i (subResult (s.reg i) (s.reg j))).advance 2)
  | mul {a b : Byte} {i j : Fin 8} (ha : a.toNat = i.val) (hb : b.toNat = j.val) :
      Completes s (.mul a b) ((s.setReg i (mulResult (s.reg i) (s.reg j))).advance 2)
  | div {a b : Byte} {i j : Fin 8} (ha : a.toNat = i.val) (hb : b.toNat = j.val) (h0 : s.reg j ≠ 0) :
      Completes s (.div a b) ((s.setReg i (divResult (s.reg i) (s.reg j))).advance 2)
  | mod {a b : Byte} {i j : Fin 8} (ha : a.toNat = i.val) (hb : b.toNat = j.val) (h0 : s.reg j ≠ 0) :
      Completes s (.mod a b) ((s.setReg i (modResult (s.reg i) (s.reg j))).advance 2)
  | inc {a : Byte} {i : Fin 8} (ha : a.toNat = i.val) :
      Completes s (.inc a) ((s.setReg i (incResult (s.reg i))).advance 1)
  | dec {a : Byte} {i : Fin 8} (ha : a.toNat = i.val) :
      Completes s (.dec a) ((s.setReg i (decResult (s.reg i))).advance 1)
  | cmp {a b : Byte} {i j : Fin 8} (ha : a.toNat = i.val) (hb : b.toNat = j.val) :
      Completes s (.cmp a b) ((s.setFlag (compareFlag (s.reg i) (s.reg j))).advance 2)
  | and {a b : Byte} {i j : Fin 8} (ha : a.toNat = i.val) (hb : b.toNat = j.val) :
      Completes s (.and a b) ((s.setReg i (andResult (s.reg i) (s.reg j))).advance 2)
  | not {a : Byte} {i : Fin 8} (ha : a.toNat = i.val) :
      Completes s (.not a) ((s.setReg i (notResult (s.reg i))).advance 1)
  | or {a b : Byte} {i j : Fin 8} (ha : a.toNat = i.val) (hb : b.toNat = j.val) :
      Completes s (.or a b) ((s.setReg i (orResult (s.reg i) (s.reg j))).advance 2)
  | xor {a b : Byte} {i j : Fin 8} (ha : a.toNat = i.val) (hb : b.toNat = j.val) :
      Completes s (.xor a b) ((s.setReg i (xorResult (s.reg i) (s.reg j))).advance 2)
  | shl {a b : Byte} {i j : Fin 8} (ha : a.toNat = i.val) (hb : b.toNat = j.val) :
      Completes s (.shl a b) ((s.setReg i (shlResult (s.reg i) (s.reg j))).advance 2)
  | shr {a b : Byte} {i j : Fin 8} (ha : a.toNat = i.val) (hb : b.toNat = j.val) :
      Completes s (.shr a b) ((s.setReg i (shrResult (s.reg i) (s.reg j))).advance 2)

/-- What each instruction raises, with its guards (R203, R204, R205). -/
inductive Raises (s : State) : Instr → FaultKind → Prop where
  | operand {ins : Instr} (h : ins.wellFormed = false) : Raises s ins .outOfBounds
  | div {a b : Byte} {i j : Fin 8} (ha : a.toNat = i.val) (hb : b.toNat = j.val) (h0 : s.reg j = 0) :
      Raises s (.div a b) .divisionByZero
  | mod {a b : Byte} {i j : Fin 8} (ha : a.toNat = i.val) (hb : b.toNat = j.val) (h0 : s.reg j = 0) :
      Raises s (.mod a b) .divisionByZero
  | push {a : Byte} {i : Fin 8} (ha : a.toNat = i.val) (hsp : s.sp = 0) : Raises s (.push a) .stackBounds
  | call {a : Byte} {i : Fin 8} (ha : a.toNat = i.val) (hsp : s.sp = 0) : Raises s (.call a) .stackBounds
  | pop {a : Byte} {i : Fin 8} (ha : a.toNat = i.val)
      (hsp : (s.setReg i (s.mem.read s.sp.toNat).toNat).sp = 255) : Raises s (.pop a) .stackBounds
  | ret (hsp : s.sp = 255) : Raises s .ret .stackBounds

variable {s t : State} {ins : Instr} {k : FaultKind}

/-- An instruction that completes answers its completed state. -/
theorem exec_of_completes (h : Completes s ins t) : exec ins s = .next t := by
  cases h with
  | hlt => rfl
  | ldi ha => simp [exec, execLdi, checkDst_of_eq ha, bind, Except.bind]
  | prn ha => simp [exec, execPrn, checkSrc_of_eq ha, bind, Except.bind]
  | push ha hsp =>
    simp only [exec, execPush, checkSrc_of_eq ha, decrementSp_of_ne hsp, memWrite_byte, bind, Except.bind, commit_ok,
      State.pushByte, State.pushed, State.setReg_mem]
  | pop ha hsp =>
    simp [exec, execPop, checkDst_of_eq ha, memRead_byte, incrementSp_of_ne hsp, bind, Except.bind]
  | ret hsp => simp [exec, execRet, memRead_byte, incrementSp_of_ne hsp, bind, Except.bind]
  | call ha hsp =>
    simp only [exec, execCall, checkSrc_of_eq ha, decrementSp_of_ne hsp, memWrite_byte, bind, Except.bind, commit_ok,
      State.pushByte, State.pushed, State.setReg_mem, State.setMem_reg]
  | jmp ha => simp [exec, execJmp, jumpIf_ok _ ha]
  | jeq ha => simp only [exec, execJeq, jumpIf_ok _ ha, commit_ok]
  | jne ha => simp only [exec, execJne, jumpIf_ok _ ha, commit_ok]
  | add ha hb => simp [exec, execAdd, aluBinary_ok _ ha hb]
  | sub ha hb => simp [exec, execSub, aluBinary_ok _ ha hb]
  | mul ha hb => simp [exec, execMul, aluBinary_ok _ ha hb]
  | div ha hb h0 => simp [exec, execDiv, aluDivide_ok _ ha hb h0]
  | mod ha hb h0 => simp [exec, execMod, aluDivide_ok _ ha hb h0]
  | inc ha => simp [exec, execInc, aluUnary_ok _ ha]
  | dec ha => simp [exec, execDec, aluUnary_ok _ ha]
  | cmp ha hb => simp [exec, execCmp, checkSrc_of_eq ha, checkSrc_of_eq hb, bind, Except.bind]
  | and ha hb => simp [exec, execAnd, aluBinary_ok _ ha hb]
  | not ha => simp [exec, execNot, aluUnary_ok _ ha]
  | or ha hb => simp [exec, execOr, aluBinary_ok _ ha hb]
  | xor ha hb => simp [exec, execXor, aluBinary_ok _ ha hb]
  | shl ha hb => simp [exec, execShl, aluBinary_ok _ ha hb]
  | shr ha hb => simp [exec, execShr, aluBinary_ok _ ha hb]

/-- An operand byte above 7 raises `OutOfBounds`, whatever the state and the other operand. -/
theorem exec_of_not_wellFormed (h : ins.wellFormed = false) : exec ins s = .next (s.enterFault .outOfBounds) := by
  cases ins with
  | hlt => simp [Instr.wellFormed, Instr.registerOperands] at h
  | ret => simp [Instr.wellFormed, Instr.registerOperands] at h
  | ldi a imm | pop a =>
    have ha : 7 < a.toNat := by simpa [Instr.wellFormed, Instr.registerOperands] using h
    simp [exec, execLdi, execPop, checkDst_of_gt ha, bind, Except.bind]
  | prn a | push a | call a =>
    have ha : 7 < a.toNat := by simpa [Instr.wellFormed, Instr.registerOperands] using h
    simp [exec, execPrn, execPush, execCall, checkSrc_of_gt ha, bind, Except.bind]
  | jmp a | jeq a | jne a =>
    have ha : 7 < a.toNat := by simpa [Instr.wellFormed, Instr.registerOperands] using h
    simp [exec, execJmp, execJeq, execJne, jumpIf_outOfBounds _ ha]
  | inc a | dec a | not a =>
    have ha : 7 < a.toNat := by simpa [Instr.wellFormed, Instr.registerOperands] using h
    simp [exec, execInc, execDec, execNot, aluUnary_outOfBounds _ ha]
  | cmp a b =>
    have hab : 7 < a.toNat ∨ 7 < b.toNat := by
      simp [Instr.wellFormed, Instr.registerOperands] at h
      omega
    rcases register_or_gt a with ⟨i, ha⟩ | ha
    · have hb : 7 < b.toNat := by omega
      simp [exec, execCmp, checkSrc_of_eq ha, checkSrc_of_gt hb, bind, Except.bind]
    · simp [exec, execCmp, checkSrc_of_gt ha, bind, Except.bind]
  | div a b | mod a b =>
    have hab : 7 < a.toNat ∨ 7 < b.toNat := by
      simp [Instr.wellFormed, Instr.registerOperands] at h
      omega
    simp [exec, execDiv, execMod, aluDivide_outOfBounds _ hab]
  | add a b | sub a b | mul a b | and a b | or a b | xor a b | shl a b | shr a b =>
    have hab : 7 < a.toNat ∨ 7 < b.toNat := by
      simp [Instr.wellFormed, Instr.registerOperands] at h
      omega
    simp [exec, execAdd, execSub, execMul, execAnd, execOr, execXor, execShl, execShr, aluBinary_outOfBounds _ hab]

/-- An instruction that raises answers the fault entry from the state it began in. -/
theorem exec_of_raises (h : Raises s ins k) : exec ins s = .next (s.enterFault k) := by
  cases h with
  | operand h => exact exec_of_not_wellFormed h
  | div ha hb h0 => simp [exec, execDiv, aluDivide_zero _ ha hb h0]
  | mod ha hb h0 => simp [exec, execMod, aluDivide_zero _ ha hb h0]
  | push ha hsp => simp [exec, execPush, checkSrc_of_eq ha, decrementSp_of_zero hsp, bind, Except.bind]
  | call ha hsp => simp [exec, execCall, checkSrc_of_eq ha, decrementSp_of_zero hsp, bind, Except.bind]
  | pop ha hsp => simp [exec, execPop, checkDst_of_eq ha, memRead_byte, incrementSp_of_max hsp, bind, Except.bind]
  | ret hsp => simp [exec, execRet, memRead_byte, incrementSp_of_max hsp, bind, Except.bind]

/-- A well-formed instruction's one register operand names a register. -/
theorem exists_register {a : Byte} (h : decide (a.toNat ≤ 7) = true) : ∃ i : Fin 8, a.toNat = i.val :=
  ⟨⟨a.toNat, by simp at h; omega⟩, rfl⟩

/-- In every state every instruction completes or raises. -/
theorem completes_or_raises (s : State) (ins : Instr) : (∃ t, Completes s ins t) ∨ ∃ k, Raises s ins k := by
  by_cases hw : ins.wellFormed = true
  case neg => exact .inr ⟨_, .operand (by simpa using hw)⟩
  cases ins with
  | hlt => exact .inl ⟨_, .hlt⟩
  | ret => exact (em (s.sp = 255)).elim (fun h => .inr ⟨_, .ret h⟩) fun h => .inl ⟨_, .ret h⟩
  | ldi a _ | prn a | push a | pop a | call a | jmp a | jeq a | jne a | inc a | dec a | not a =>
    obtain ⟨i, ha⟩ := exists_register (a := a) (by simpa [Instr.wellFormed, Instr.registerOperands] using hw)
    first
    | exact .inl ⟨_, .ldi ha⟩
    | exact .inl ⟨_, .prn ha⟩
    | exact .inl ⟨_, .jmp ha⟩
    | exact .inl ⟨_, .jeq ha⟩
    | exact .inl ⟨_, .jne ha⟩
    | exact .inl ⟨_, .inc ha⟩
    | exact .inl ⟨_, .dec ha⟩
    | exact .inl ⟨_, .not ha⟩
    | exact (em (s.sp = 0)).elim (fun h => .inr ⟨_, .push ha h⟩) fun h => .inl ⟨_, .push ha h⟩
    | exact (em (s.sp = 0)).elim (fun h => .inr ⟨_, .call ha h⟩) fun h => .inl ⟨_, .call ha h⟩
    | exact (em ((s.setReg i (s.mem.read s.sp.toNat).toNat).sp = 255)).elim (fun h => .inr ⟨_, .pop ha h⟩)
        fun h => .inl ⟨_, .pop ha h⟩
  | add a b | sub a b | mul a b | div a b | mod a b | cmp a b | and a b | or a b | xor a b | shl a b | shr a b =>
    have hab : decide (a.toNat ≤ 7) = true ∧ decide (b.toNat ≤ 7) = true := by
      simpa [Instr.wellFormed, Instr.registerOperands] using hw
    obtain ⟨i, ha⟩ := exists_register hab.1
    obtain ⟨j, hb⟩ := exists_register hab.2
    first
    | exact .inl ⟨_, .add ha hb⟩
    | exact .inl ⟨_, .sub ha hb⟩
    | exact .inl ⟨_, .mul ha hb⟩
    | exact .inl ⟨_, .cmp ha hb⟩
    | exact .inl ⟨_, .and ha hb⟩
    | exact .inl ⟨_, .or ha hb⟩
    | exact .inl ⟨_, .xor ha hb⟩
    | exact .inl ⟨_, .shl ha hb⟩
    | exact .inl ⟨_, .shr ha hb⟩
    | exact (em (s.reg j = 0)).elim (fun h => .inr ⟨_, .div ha hb h⟩) fun h => .inl ⟨_, .div ha hb h⟩
    | exact (em (s.reg j = 0)).elim (fun h => .inr ⟨_, .mod ha hb h⟩) fun h => .inl ⟨_, .mod ha hb h⟩

/-- Inversion: a next state of `exec` is the completed state or the entry of the fault raised. -/
theorem exec_cases (h : exec ins s = .next t) : Completes s ins t ∨ ∃ k, Raises s ins k ∧ t = s.enterFault k := by
  rcases completes_or_raises s ins with ⟨t', h'⟩ | ⟨k, h'⟩
  · rw [exec_of_completes h', Host.Outcome.next.injEq] at h
    exact .inl (h ▸ h')
  · rw [exec_of_raises h', Host.Outcome.next.injEq] at h
    exact .inr ⟨k, h', h.symm⟩

end Sys2Proof.Machine
end

