-- ==== Sys2Proof/Laws/PerInstr.lean ====
section
/-! SUPPORT. Facts about every instruction as syntax, one lemma per constructor: its operand bytes are as many as its format
has, and its mnemonic and operand bytes give the instruction back (R77, R78). -/

namespace Sys2Proof.Laws.Encoding

/-- The operand bytes fill the format, and rebuild the instruction. -/
def Statement (i : Instr) : Prop :=
  i.operandBytes.length = i.mnemonic.operandCount ∧
    i.mnemonic.instr (i.operandBytes.getD 0 0) (i.operandBytes.getD 1 0) = i

theorem hlt : Statement .hlt := ⟨rfl, rfl⟩
theorem ldi (a imm : Byte) : Statement (.ldi a imm) := ⟨rfl, rfl⟩
theorem prn (a : Byte) : Statement (.prn a) := ⟨rfl, rfl⟩
theorem push (a : Byte) : Statement (.push a) := ⟨rfl, rfl⟩
theorem pop (a : Byte) : Statement (.pop a) := ⟨rfl, rfl⟩
theorem ret : Statement .ret := ⟨rfl, rfl⟩
theorem call (a : Byte) : Statement (.call a) := ⟨rfl, rfl⟩
theorem jmp (a : Byte) : Statement (.jmp a) := ⟨rfl, rfl⟩
theorem jeq (a : Byte) : Statement (.jeq a) := ⟨rfl, rfl⟩
theorem jne (a : Byte) : Statement (.jne a) := ⟨rfl, rfl⟩
theorem add (a b : Byte) : Statement (.add a b) := ⟨rfl, rfl⟩
theorem sub (a b : Byte) : Statement (.sub a b) := ⟨rfl, rfl⟩
theorem mul (a b : Byte) : Statement (.mul a b) := ⟨rfl, rfl⟩
theorem div (a b : Byte) : Statement (.div a b) := ⟨rfl, rfl⟩
theorem mod (a b : Byte) : Statement (.mod a b) := ⟨rfl, rfl⟩
theorem inc (a : Byte) : Statement (.inc a) := ⟨rfl, rfl⟩
theorem dec (a : Byte) : Statement (.dec a) := ⟨rfl, rfl⟩
theorem cmp (a b : Byte) : Statement (.cmp a b) := ⟨rfl, rfl⟩
theorem and (a b : Byte) : Statement (.and a b) := ⟨rfl, rfl⟩
theorem not (a : Byte) : Statement (.not a) := ⟨rfl, rfl⟩
theorem or (a b : Byte) : Statement (.or a b) := ⟨rfl, rfl⟩
theorem xor (a b : Byte) : Statement (.xor a b) := ⟨rfl, rfl⟩
theorem shl (a b : Byte) : Statement (.shl a b) := ⟨rfl, rfl⟩
theorem shr (a b : Byte) : Statement (.shr a b) := ⟨rfl, rfl⟩

end Sys2Proof.Laws.Encoding
end

