-- ==== Sys2Proof/Laws/Step.lean ====
section
/-! SUPPORT. The fetch, the decoder's small lemmas, and the inversion of one cycle. -/

namespace Sys2Proof

variable {map : OpcodeMap} {op : Byte} {m : Mnemonic}

/-! ### The decoder -/

theorem Mnemonic.mem_all (m : Mnemonic) : m ∈ Mnemonic.all := by cases m <;> decide

/-- What a decoded opcode byte is: a byte with the family, the identifier and the operand count of its row. -/
theorem decodeOpcodeWith_ok (h : decodeOpcodeWith map op = .ok m) :
    opcodeFamily op = some m.family ∧ opcodeId (map m) = opcodeId op ∧ m.operandCount = opcodeCount op := by
  unfold decodeOpcodeWith at h
  split at h
  · exact absurd h (by simp)
  · next fam hfam =>
    split at h
    · exact absurd h (by simp)
    · next m' hfind =>
      have hp := List.find?_some hfind
      simp only [Bool.and_eq_true, beq_iff_eq] at hp
      split at h
      · next hN =>
        obtain rfl : m' = m := by simpa using h
        exact ⟨by rw [hfam, hp.1], hp.2, hN⟩
      · exact absurd h (by simp)

/-- A byte's four fields determine it. -/
theorem opcode_ext {x y : Byte} (hf : opcodeFamily x = opcodeFamily y) (hx : opcodeFamily x ≠ none)
    (hn : opcodeCount x = opcodeCount y) (hid : opcodeId x = opcodeId y) : x = y := by
  have h5 : x.getLsbD 5 = y.getLsbD 5 := by
    unfold opcodeFamily opcodeIsAlu opcodeIsControl at hf hx
    revert hf hx
    cases x.getLsbD 5 <;> cases x.getLsbD 4 <;> cases y.getLsbD 5 <;> cases y.getLsbD 4 <;> simp
  have h4 : x.getLsbD 4 = y.getLsbD 4 := by
    unfold opcodeFamily opcodeIsAlu opcodeIsControl at hf hx
    revert hf hx
    cases x.getLsbD 5 <;> cases x.getLsbD 4 <;> cases y.getLsbD 5 <;> cases y.getLsbD 4 <;> simp
  have e6 : x.extractLsb' 6 2 = y.extractLsb' 6 2 := BitVec.eq_of_toNat_eq hn
  have e0 : x.extractLsb' 0 4 = y.extractLsb' 0 4 := BitVec.eq_of_toNat_eq hid
  refine BitVec.eq_of_getLsbD_eq fun k hk => ?_
  have low : ∀ j, j < 4 → x.getLsbD j = y.getLsbD j := fun j hj => by
    have := congrArg (·.getLsbD j) e0
    simpa [BitVec.getLsbD_extractLsb', hj] using this
  have high : ∀ j, j < 2 → x.getLsbD (6 + j) = y.getLsbD (6 + j) := fun j hj => by
    have := congrArg (·.getLsbD j) e6
    simpa [BitVec.getLsbD_extractLsb', hj] using this
  rcases Nat.lt_or_ge k 4 with h | h
  · exact low k h
  · rcases Nat.lt_or_ge k 6 with h6 | h6
    · obtain rfl | rfl : k = 4 ∨ k = 5 := by omega
      · exact h4
      · exact h5
    · obtain ⟨j, rfl⟩ : ∃ j, k = 6 + j := ⟨k - 6, by omega⟩
      exact high j (by omega)

/-- The family lemmas of `Laws.Encoding`, put together for every instruction. -/
theorem encoding_statement (i : Instr) : Laws.Encoding.Statement i := by
  cases i
  case hlt => exact Laws.Encoding.hlt
  case ldi a imm => exact Laws.Encoding.ldi a imm
  case prn a => exact Laws.Encoding.prn a
  case push a => exact Laws.Encoding.push a
  case pop a => exact Laws.Encoding.pop a
  case ret => exact Laws.Encoding.ret
  case call a => exact Laws.Encoding.call a
  case jmp a => exact Laws.Encoding.jmp a
  case jeq a => exact Laws.Encoding.jeq a
  case jne a => exact Laws.Encoding.jne a
  case add a b => exact Laws.Encoding.add a b
  case sub a b => exact Laws.Encoding.sub a b
  case mul a b => exact Laws.Encoding.mul a b
  case div a b => exact Laws.Encoding.div a b
  case mod a b => exact Laws.Encoding.mod a b
  case inc a => exact Laws.Encoding.inc a
  case dec a => exact Laws.Encoding.dec a
  case cmp a b => exact Laws.Encoding.cmp a b
  case and a b => exact Laws.Encoding.and a b
  case not a => exact Laws.Encoding.not a
  case or a b => exact Laws.Encoding.or a b
  case xor a b => exact Laws.Encoding.xor a b
  case shl a b => exact Laws.Encoding.shl a b
  case shr a b => exact Laws.Encoding.shr a b

/-- The opcode byte decides whether three fetched bytes decode (R83), and the mnemonic of what they decode to. -/
theorem decode_three (map : OpcodeMap) (op a b : Byte) :
    (∃ m, decodeOpcodeWith map op = .ok m ∧ ∃ i rest, decodeWith map [op, a, b] = .ok (i, rest) ∧ i.mnemonic = m) ∨
      ∃ e, decodeOpcodeWith map op = .error e ∧ decodeWith map [op, a, b] = .error e := by
  cases h : decodeOpcodeWith map op with
  | error e => exact .inr ⟨e, rfl, by simp [decodeWith, h]⟩
  | ok m =>
    refine .inl ⟨m, rfl, ?_⟩
    cases m <;> simp [decodeWith, h, Mnemonic.format, Mnemonic.instr, Instr.mnemonic]

end Sys2Proof

namespace Sys2Proof.Machine

variable {map : OpcodeMap} {s t : State} {i : Instr} {k : FaultKind}

/-! ### Fetch and decode -/

theorem fetch_of_le (h : s.pc ≤ 253) :
    fetch s = .ok (s.mem.read s.pc, s.mem.read (s.pc + 1), s.mem.read (s.pc + 2)) := by
  simp [fetch, memRead_of_le s (show s.pc ≤ 255 by omega), memRead_of_le s (show s.pc + 1 ≤ 255 by omega),
    memRead_of_le s (show s.pc + 2 ≤ 255 by omega), bind, Except.bind]

theorem fetch_of_gt (h : 253 < s.pc) : fetch s = .error .outOfBounds := by
  by_cases h0 : 255 < s.pc
  · simp [fetch, memRead_of_gt s h0, bind, Except.bind]
  · by_cases h1 : 255 < s.pc + 1
    · simp [fetch, memRead_of_le s (show s.pc ≤ 255 by omega), memRead_of_gt s h1, bind, Except.bind]
    · simp [fetch, memRead_of_le s (show s.pc ≤ 255 by omega), memRead_of_le s (show s.pc + 1 ≤ 255 by omega),
        memRead_of_gt s (show 255 < s.pc + 2 by omega), bind, Except.bind]

theorem fetchDecodeWith_of_gt (h : 253 < s.pc) : fetchDecodeWith map s = .error .outOfBounds := by
  simp [fetchDecodeWith, fetch_of_gt h, bind, Except.bind]

theorem fetchDecodeWith_of_decode {rest : List Byte} (h : s.pc ≤ 253)
    (hd : decodeWith map [s.mem.read s.pc, s.mem.read (s.pc + 1), s.mem.read (s.pc + 2)] = .ok (i, rest)) :
    fetchDecodeWith map s = .ok i := by
  simp [fetchDecodeWith, fetch_of_le h, bind, Except.bind, hd]

theorem fetchDecodeWith_of_error {e : DecodeError} (h : s.pc ≤ 253)
    (hd : decodeWith map [s.mem.read s.pc, s.mem.read (s.pc + 1), s.mem.read (s.pc + 2)] = .error e) :
    fetchDecodeWith map s = .error .unsupportedOpcode := by
  simp [fetchDecodeWith, fetch_of_le h, bind, Except.bind, hd]

/-- Everything a fetch and decode can answer. -/
theorem fetchDecodeWith_cases (map : OpcodeMap) (s : State) :
    (253 < s.pc ∧ fetchDecodeWith map s = .error .outOfBounds) ∨
    (s.pc ≤ 253 ∧ (∃ e, decodeOpcodeWith map (s.mem.read s.pc) = .error e) ∧
      fetchDecodeWith map s = .error .unsupportedOpcode) ∨
    (s.pc ≤ 253 ∧ ∃ i rest,
      decodeWith map [s.mem.read s.pc, s.mem.read (s.pc + 1), s.mem.read (s.pc + 2)] = .ok (i, rest) ∧
      decodeOpcodeWith map (s.mem.read s.pc) = .ok i.mnemonic ∧ fetchDecodeWith map s = .ok i) := by
  by_cases h : 253 < s.pc
  · exact .inl ⟨h, fetchDecodeWith_of_gt h⟩
  · have hle : s.pc ≤ 253 := by omega
    rcases decode_three map (s.mem.read s.pc) (s.mem.read (s.pc + 1)) (s.mem.read (s.pc + 2)) with
      ⟨m, hm, i, rest, hd, rfl⟩ | ⟨e, he, hd⟩
    · exact .inr (.inr ⟨hle, i, rest, hd, hm, fetchDecodeWith_of_decode hle hd⟩)
    · exact .inr (.inl ⟨hle, ⟨e, he⟩, fetchDecodeWith_of_error hle hd⟩)

/-! ### One cycle -/

theorem stepWith_of_error (hr : s.run = .running) (h : fetchDecodeWith map s = .error k) :
    stepWith map s = .next (s.enterFault k) := by
  simp [stepWith, hr, h]

theorem stepWith_of_ok (hr : s.run = .running) (h : fetchDecodeWith map s = .ok i) : stepWith map s = exec i s := by
  simp [stepWith, hr, h]

/-- Inversion of one cycle: a next state comes from a RUNNING state, either by the entry of a fault raised in the fetch or
the decode, or by the instruction the bytes at pc decode to, which completes or raises. -/
theorem stepWith_cases (h : stepWith map s = .next t) :
    s.run = .running ∧
      ((∃ k, fetchDecodeWith map s = .error k ∧ t = s.enterFault k) ∨
        ∃ i, fetchDecodeWith map s = .ok i ∧ s.pc ≤ 253 ∧ decodeOpcodeWith map (s.mem.read s.pc) = .ok i.mnemonic ∧
          (Completes s i t ∨ ∃ k, Raises s i k ∧ t = s.enterFault k)) := by
  have hr : s.run = .running := by
    cases hrun : s.run with
    | running => rfl
    | halted => simp [stepWith, hrun] at h
    | faulted => simp [stepWith, hrun] at h
  refine ⟨hr, ?_⟩
  rcases fetchDecodeWith_cases map s with ⟨-, hf⟩ | ⟨-, -, hf⟩ | ⟨hle, i, rest, -, hm, hf⟩
  · rw [stepWith_of_error hr hf, Host.Outcome.next.injEq] at h
    exact .inl ⟨_, hf, h.symm⟩
  · rw [stepWith_of_error hr hf, Host.Outcome.next.injEq] at h
    exact .inl ⟨_, hf, h.symm⟩
  · rw [stepWith_of_ok hr hf] at h
    exact .inr ⟨i, hf, hle, hm, exec_cases h⟩

end Sys2Proof.Machine
end

