-- ==== Sys2Proof/Machine/Image.lean ====
section
/-! DEFINITION. The loader's text image format (R85). Parsing is surrounding software (R5); it is written down because R85
states the format. -/

namespace Sys2Proof.Machine

/-- A binary digit. -/
def binaryDigit (c : Char) : Option Nat :=
  if c = '0' then some 0 else if c = '1' then some 1 else none

/-- The value of a run of binary digits, the first the most significant; none if a character is no digit. -/
def binaryValue (acc : Nat) : List Char → Option Nat
  | [] => some acc
  | c :: cs =>
    match binaryDigit c with
    | some d => binaryValue (2 * acc + d) cs
    | none => none

/-- A line is an instruction byte exactly when it begins with '0' or '1'; every other line is ignored (R85). -/
def imageLineQualifies : List Char → Bool
  | [] => false
  | c :: _ => (binaryDigit c).isSome

/-- The byte of a qualifying line: its leading 8 characters, the first being bit 7. A line that has no 8 binary digits there
is refused (the source leaves it open; log 11). -/
def imageLineByte (line : List Char) : Option Byte :=
  if (line.take 8).length = 8 then (binaryValue 0 (line.take 8)).map (BitVec.ofNat 8) else none

/-- The image of a text, line by line. -/
def parseImage : List (List Char) → Option (List Byte)
  | [] => some []
  | line :: rest =>
    if imageLineQualifies line then
      match imageLineByte line, parseImage rest with
      | some b, some bs => some (b :: bs)
      | _, _ => none
    else parseImage rest

end Sys2Proof.Machine
end

