-- ==== Sys2Proof/Machine/Assembler.lean ====
section
/-! DEFINITION. The assembly syntax (R14, R86) over character lists, and the bytes it assembles to. It is notation, no part
of the machine. -/

namespace Sys2Proof.Machine

/-- The spelling of a mnemonic (R86). -/
def mnemonicText : Mnemonic → List Char
  | .hlt => ['H', 'L', 'T']
  | .ldi => ['L', 'D', 'I']
  | .prn => ['P', 'R', 'N']
  | .push => ['P', 'U', 'S', 'H']
  | .pop => ['P', 'O', 'P']
  | .ret => ['R', 'E', 'T']
  | .call => ['C', 'A', 'L', 'L']
  | .jmp => ['J', 'M', 'P']
  | .jeq => ['J', 'E', 'Q']
  | .jne => ['J', 'N', 'E']
  | .add => ['A', 'D', 'D']
  | .sub => ['S', 'U', 'B']
  | .mul => ['M', 'U', 'L']
  | .div => ['D', 'I', 'V']
  | .mod => ['M', 'O', 'D']
  | .inc => ['I', 'N', 'C']
  | .dec => ['D', 'E', 'C']
  | .cmp => ['C', 'M', 'P']
  | .and => ['A', 'N', 'D']
  | .not => ['N', 'O', 'T']
  | .or => ['O', 'R']
  | .xor => ['X', 'O', 'R']
  | .shl => ['S', 'H', 'L']
  | .shr => ['S', 'H', 'R']

/-- Drop the spaces at both ends. -/
def trimSpaces (cs : List Char) : List Char :=
  (((cs.dropWhile (· == ' ')).reverse).dropWhile (· == ' ')).reverse

/-- `reg` of R86: R0 to R7, or SP for R7. -/
def parseRegister : List Char → Option Byte
  | ['S', 'P'] => some 7
  | ['R', c] => if '0'.toNat ≤ c.toNat ∧ c.toNat ≤ '7'.toNat then some (BitVec.ofNat 8 (c.toNat - '0'.toNat)) else none
  | _ => none

/-- The value of a digit in a base up to 16; hexadecimal letters may be of either case. -/
def digitIn (base : Nat) (c : Char) : Option Nat :=
  let d :=
    if '0'.toNat ≤ c.toNat ∧ c.toNat ≤ '9'.toNat then c.toNat - '0'.toNat
    else if 'A'.toNat ≤ c.toNat ∧ c.toNat ≤ 'F'.toNat then c.toNat - 'A'.toNat + 10
    else if 'a'.toNat ≤ c.toNat ∧ c.toNat ≤ 'f'.toNat then c.toNat - 'a'.toNat + 10
    else 16
  if d < base then some d else none

/-- The value of a run of digits in a base. -/
def digitsIn (base acc : Nat) : List Char → Option Nat
  | [] => some acc
  | c :: cs =>
    match digitIn base c with
    | some d => digitsIn base (base * acc + d) cs
    | none => none

/-- `imm` of R86: decimal 0 to 255, 0x and two hexadecimal digits, or 0b and eight binary digits. -/
def parseImmediate : List Char → Option Byte
  | '0' :: 'x' :: ds => if ds.length = 2 then (digitsIn 16 0 ds).map (BitVec.ofNat 8) else none
  | '0' :: 'b' :: ds => if ds.length = 8 then (digitsIn 2 0 ds).map (BitVec.ofNat 8) else none
  | [] => none
  | ds =>
    match digitsIn 10 0 ds with
    | some v => if v ≤ 255 then some (BitVec.ofNat 8 v) else none
    | none => none

/-- The operands of a format, in the text after the mnemonic (R86). -/
def parseOperands (f : Format) (cs : List Char) : Option (Byte × Byte) :=
  let first := trimSpaces (cs.takeWhile (· != ','))
  let second := trimSpaces ((cs.dropWhile (· != ',')).drop 1)
  match f with
  | .f0 => if cs.isEmpty then some (0, 0) else none
  | .f1r => (parseRegister cs).map fun a => (a, 0)
  | .f2ri =>
    match parseRegister first, parseImmediate second with
    | some a, some b => some (a, b)
    | _, _ => none
  | .f2rr =>
    match parseRegister first, parseRegister second with
    | some a, some b => some (a, b)
    | _, _ => none

/-- `instr` of R86: a mnemonic, then its operands after at least one space. -/
def parseInstr (text : List Char) : Option Instr :=
  let cs := trimSpaces text
  let word := cs.takeWhile (· != ' ')
  match Mnemonic.all.find? fun m => mnemonicText m == word with
  | none => none
  | some m =>
    match parseOperands m.format (trimSpaces (cs.drop word.length)) with
    | some (a, b) => some (m.instr a b)
    | none => none

/-- Cut a text at every semicolon and newline (R86). -/
def splitInstrs : List Char → List (List Char)
  | [] => [[]]
  | c :: cs =>
    if c = ';' ∨ c = '\n' then [] :: splitInstrs cs
    else
      match splitInstrs cs with
      | [] => [[c]]
      | first :: rest => (c :: first) :: rest

/-- Parse each text in turn; one that is no instruction refuses the whole program. -/
def parseInstrs : List (List Char) → Option (List Instr)
  | [] => some []
  | t :: ts =>
    match parseInstr t, parseInstrs ts with
    | some i, some is => some (i :: is)
    | _, _ => none

/-- The bytes of a program: each instruction's opcode and operand bytes, no ignored bytes (R7, R86). -/
def assembleWith (map : OpcodeMap) (program : List Instr) : List Byte := program.flatMap (encodeWith map)

/-- `program` of R86, assembled with the default opcode map. -/
def assembleText (text : List Char) : Option (List Byte) :=
  (parseInstrs (splitInstrs text)).map (assembleWith opcodeMap)

end Sys2Proof.Machine
end

