-- ==== Sys2Proof/Tests/Slice0.lean ====
section
/-! SUPPORT. The model's own tests. Expected results are the spec's: the opcode bits of R80, the vectors of 95_test_vectors.md
(named V-…, F…, P…), and the rules' own examples. Each is one step or one decode. Then a witness for the hypotheses of each
obligation that has some. -/

namespace Sys2Proof.Tests

open Sys2Proof Sys2Proof.Machine

/-! ### Well-formedness: each check has an ill-formed term it refuses, and R7 is the last register it admits -/

theorem test_wellFormed_refuses_a : (Instr.ldi 8 0).wellFormed = false := by decide
theorem test_wellFormed_refuses_a_of_two : (Instr.add 255 0).wellFormed = false := by decide
theorem test_wellFormed_refuses_b : (Instr.cmp 0 8).wellFormed = false := by decide
theorem test_wellFormed_admits_r7 : (Instr.shr 7 7).wellFormed = true ∧ (Instr.ldi 7 255).wellFormed = true := by decide

/-! ### Decoding: every opcode written out from the Binary column of R80 -/

theorem test_decode_primary :
    decode [0b00000001] = .ok (.hlt, []) ∧ decode [0b10000010, 1, 200] = .ok (.ldi 1 200, []) ∧
    decode [0b01000111, 2] = .ok (.prn 2, []) ∧ decode [0b01000101, 3] = .ok (.push 3, []) ∧
    decode [0b01000110, 4] = .ok (.pop 4, []) := by decide

theorem test_decode_control :
    decode [0b00010001] = .ok (.ret, []) ∧ decode [0b01010000, 1] = .ok (.call 1, []) ∧
    decode [0b01010100, 2] = .ok (.jmp 2, []) ∧ decode [0b01010101, 3] = .ok (.jeq 3, []) ∧
    decode [0b01010110, 4] = .ok (.jne 4, []) := by decide

theorem test_decode_alu_arithmetic :
    decode [0b10100000, 1, 2] = .ok (.add 1 2, []) ∧ decode [0b10100001, 1, 2] = .ok (.sub 1 2, []) ∧
    decode [0b10100010, 1, 2] = .ok (.mul 1 2, []) ∧ decode [0b10100011, 1, 2] = .ok (.div 1 2, []) ∧
    decode [0b10100100, 1, 2] = .ok (.mod 1 2, []) ∧ decode [0b01100101, 5] = .ok (.inc 5, []) ∧
    decode [0b01100110, 6] = .ok (.dec 6, []) ∧ decode [0b10100111, 1, 2] = .ok (.cmp 1 2, []) := by decide

theorem test_decode_alu_logic :
    decode [0b10101000, 1, 2] = .ok (.and 1 2, []) ∧ decode [0b01101001, 7] = .ok (.not 7, []) ∧
    decode [0b10101010, 1, 2] = .ok (.or 1 2, []) ∧ decode [0b10101011, 1, 2] = .ok (.xor 1 2, []) ∧
    decode [0b10101100, 1, 2] = .ok (.shl 1 2, []) ∧ decode [0b10101101, 1, 2] = .ok (.shr 1 2, []) := by decide

/-- V-DCD-1, 2, 3: the tuple of R76. -/
theorem test_decode_fields :
    decodeFields opcodeMap 0xA0 = some (.alu, 0, 2, .add) ∧ decodeFields opcodeMap 0x11 = some (.ctrl, 1, 0, .ret) ∧
    decodeFields opcodeMap 0x65 = some (.alu, 5, 1, .inc) := by decide

/-- V-DCD-4, 5, 6, and R82's zero byte and LS-8's LD: each rejected by name. -/
theorem test_decode_rejects :
    decodeOpcodeWith opcodeMap 0x20 = .error .wrongOperandCount ∧ decodeOpcodeWith opcodeMap 0x30 = .error .noFamily ∧
    decodeOpcodeWith opcodeMap 0xE0 = .error .wrongOperandCount ∧
    decodeOpcodeWith opcodeMap 0x00 = .error .unknownIdentifier ∧
    decodeOpcodeWith opcodeMap 0x83 = .error .unknownIdentifier := by decide

theorem test_decode_truncated : decode [0x82, 0] = .error .truncated ∧ decode [] = .error .truncated := by decide

/-- R79: the bytes an instruction does not use stay in the rest, whatever they are. -/
theorem test_decode_leaves_rest : decode [0x65, 0, 0xFF] = .ok (.inc 0, [0xFF]) := by decide

/-- A table word: first byte lowest, operand bytes above `nbits` zero. -/
theorem test_decodeTableWord :
    decodeTableWord 24 0x080082 = some (.ldi 0 8) ∧ decodeTableWord 8 0xFFFFA0 = some (.add 0 0) ∧
    decodeTableWord 8 0x00 = none := by decide

/-! ### One step each, at p = 0x10 as the vectors' conventions have it -/

/-- A state with bytes at 0x10, the given R0, R1 and SP; all registers and FL marked written. -/
def start (r0 r1 sp : Byte) (bytes : List Byte) : State :=
  { State.reset with
    mem := Memory.writeList [] 0x10 bytes
    pc := 0x10
    regs := #v[r0, r1, 0, 0, 0, 0, 0, sp]
    written := #v[true, true, true, true, true, true, true]
    flWritten := true }

/-- The state a step answers under an opcode map. -/
def afterWith (map : OpcodeMap) (s : State) : State :=
  match stepWith map s with
  | .next t => t
  | .fault _ => s
  | .refused _ => s

/-- The state a step of the default core answers. -/
def after (s : State) : State := afterWith opcodeMap s

/-- The state the checked step answers. -/
def afterChecked (s : State) : State :=
  match stepChecked s with
  | .next t => t
  | .fault _ => s
  | .refused _ => s

theorem test_add_wraps : (after (start 200 100 0xF4 [0xA0, 0, 1])).reg 0 = 44 := by decide
theorem test_add_same_register : (after (start 128 0 0xF4 [0xA0, 0, 0])).reg 0 = 0 := by decide
theorem test_sub_borrows : (after (start 5 7 0xF4 [0xA1, 0, 1])).reg 0 = 254 := by decide
theorem test_mul_low_byte : (after (start 200 2 0xF4 [0xA2, 0, 1])).reg 0 = 144 := by decide
theorem test_div_floor : (after (start 7 2 0xF4 [0xA3, 0, 1])).reg 0 = 3 := by decide
theorem test_div_zero :
    (after (start 5 0 0xF4 [0xA3, 0, 1])).fault = some ⟨.divisionByZero, 0x10, some 0xA3⟩ := by decide
theorem test_mod_remainder : (after (start 255 16 0xF4 [0xA4, 0, 1])).reg 0 = 15 := by decide
theorem test_mod_zero :
    (after (start 9 0 0xF4 [0xA4, 0, 1])).fault = some ⟨.divisionByZero, 0x10, some 0xA4⟩ := by decide
/-- V-INC-3, V-INC-4. -/
theorem test_inc_ignores_next_byte : (after (start 1 0 0xF4 [0x65, 0, 0xFF])).reg 0 = 2 := by decide
theorem test_inc_sp_wraps : (after (start 0 0 255 [0x65, 7])).sp = 0 ∧ (after (start 0 0 255 [0x65, 7])).run = .running := by
  decide
/-- V-DEC-11, V-DEC-12. -/
theorem test_dec_advances_two : (after (start 1 0 0xF4 [0x66, 0, 0xA7])).pc = 0x12 := by decide
theorem test_dec_sp_wraps : (after (start 0 0 0 [0x66, 7])).sp = 255 := by decide
theorem test_and : (after (start 0xF0 0x3C 0xF4 [0xA8, 0, 1])).reg 0 = 0x30 := by decide
theorem test_or : (after (start 0xF0 0x0F 0xF4 [0xAA, 0, 1])).reg 0 = 0xFF := by decide
theorem test_xor : (after (start 0xFF 0x0F 0xF4 [0xAB, 0, 1])).reg 0 = 0xF0 := by decide
theorem test_not : (after (start 0xA5 0 0xF4 [0x69, 0])).reg 0 = 0x5A := by decide
theorem test_shl_drops_high_bit : (after (start 0x81 1 0xF4 [0xAC, 0, 1])).reg 0 = 0x02 := by decide
theorem test_shl_by_255 : (after (start 1 255 0xF4 [0xAC, 0, 1])).reg 0 = 0 := by decide
theorem test_shr_logical : (after (start 0x81 1 0xF4 [0xAD, 0, 1])).reg 0 = 0x40 := by decide
theorem test_shr_by_8 : (after (start 0xFF 8 0xF4 [0xAD, 0, 1])).reg 0 = 0 := by decide
/-- V-CMP-1, V-CMP-5, V-CMP-4. -/
theorem test_cmp_unsigned :
    (after (start 5 3 0xF4 [0xA7, 0, 1])).fl = .G ∧ (after (start 0 255 0xF4 [0xA7, 0, 1])).fl = .L := by decide
theorem test_cmp_self_equal : (after (start 9 0 0xF4 [0xA7, 0, 0])).fl = .E := by decide
theorem test_ldi_marks_written :
    (after (start 0 0 0xF4 [0x82, 0, 8])).reg 0 = 8 ∧ (after (start 0 0 0xF4 [0x82, 0, 8])).pc = 0x13 := by decide
theorem test_ldi_r8_faults :
    (after (start 0 0 0xF4 [0x82, 8, 0])).fault = some ⟨.outOfBounds, 0x10, some 0x82⟩ := by decide
theorem test_prn_emits : (after (start 255 0 0xF4 [0x47, 0])).out = [255] := by decide
/-- V-PUSH-1, V-PUSH-2. -/
theorem test_push_stores :
    (after (start 42 0 0xF4 [0x45, 0])).mem.read 0xF3 = 42 ∧ (after (start 42 0 0xF4 [0x45, 0])).sp = 0xF3 := by decide
theorem test_push_r7_stores_decremented : (after (start 0 0 0xF4 [0x45, 7])).mem.read 0xF3 = 0xF3 := by decide
/-- V-POP-2 at another address, V-POP-4: the popped byte here is the PUSH opcode at 0x10. -/
theorem test_pop_r7_adds_one : (after (start 0 0 0x11 [0x46, 7])).sp = 8 := by decide
theorem test_pop_at_255_faults : (after (start 3 0 0xFF [0x46, 0])).fault = some ⟨.stackBounds, 0x10, some 0x46⟩ := by
  decide
/-- V-HLT-1. -/
theorem test_hlt : (after (start 0 0 0xF4 [0x01])).run = .halted ∧ (after (start 0 0 0xF4 [0x01])).pc = 0x10 := by decide
theorem test_jmp : (after (start 0x20 0 0xF4 [0x54, 0])).pc = 0x20 := by decide
/-- V-JEQ-2, V-JEQ-3: FL is L here. -/
theorem test_jeq_untaken : (after (start 0x30 0 0xF4 [0x55, 0])).pc = 0x12 := by decide
theorem test_jeq_untaken_checks_index :
    (after (start 0 0 0xF4 [0x55, 8])).fault = some ⟨.outOfBounds, 0x10, some 0x55⟩ := by decide
theorem test_jne_taken : (after (start 9 0 0xF4 [0x56, 0])).pc = 9 := by decide
theorem test_jne_untaken : (after ({ start 9 0 0xF4 [0x56, 0] with fl := .E })).pc = 0x12 := by decide
/-- V-CALL-2, V-CALL-3. -/
theorem test_call_r7 :
    (after (start 0 0 0xF4 [0x50, 7])).pc = 0xF3 ∧ (after (start 0 0 0xF4 [0x50, 7])).mem.read 0xF3 = 0x12 := by decide
theorem test_call_at_zero_faults : (after (start 0 11 0 [0x50, 1])).fault = some ⟨.stackBounds, 0x10, some 0x50⟩ := by
  decide
/-- V-RET-1 with the return byte at 0x13, V-RET-2. -/
theorem test_ret : (after (start 0 0 0x13 [0x11, 0, 0, 8])).pc = 8 ∧ (after (start 0 0 0x13 [0x11, 0, 0, 8])).sp = 0x14 := by
  decide
theorem test_ret_at_255_faults : (after (start 0 0 0xFF [0x11])).fault = some ⟨.stackBounds, 0x10, some 0x11⟩ := by decide

/-- V-FET-1, 4, 5. -/
theorem test_fetch_253 : (after { State.reset with mem := [(253, 0x01)], pc := 253 }).run = .halted := by decide
theorem test_fetch_before_decode :
    (after { State.reset with mem := [(254, 0x20)], pc := 254 }).fault = some ⟨.outOfBounds, 254, some 0x20⟩ := by decide
theorem test_fetch_256 : (after { State.reset with pc := 256 }).fault = some ⟨.outOfBounds, 256, none⟩ := by decide

/-- V-DCD-9; F1's last cycle: the zero byte of empty memory. -/
theorem test_illegal_opcode :
    (after (start 0 0 0xF4 [0x83, 0, 1])).fault = some ⟨.unsupportedOpcode, 0x10, some 0x83⟩ ∧
    (after State.reset).fault = some ⟨.unsupportedOpcode, 0, some 0⟩ := by decide

/-! ### The checked step: V-JMP-2, V-ADD-6, V-ADD-7, V-JEQ-4, V-JEQ-5 -/

/-- Nothing written, bytes at 0x10. -/
def fresh (bytes : List Byte) : State := { State.reset with mem := Memory.writeList [] 0x10 bytes, pc := 0x10 }

theorem test_checked_unwritten_register :
    (afterChecked (fresh [0x54, 2])).fault = some ⟨.unwrittenRegister, 0x10, some 0x54⟩ ∧
    (afterChecked (fresh [0xA0, 9, 3])).fault = some ⟨.outOfBounds, 0x10, some 0xA0⟩ ∧
    (afterChecked (fresh [0xA0, 3, 9])).fault = some ⟨.unwrittenRegister, 0x10, some 0xA0⟩ := by decide

theorem test_checked_unwritten_flags :
    (afterChecked { start 0 5 0xF4 [0x55, 1] with flWritten := false }).fault =
      some ⟨.unwrittenFlags, 0x10, some 0x55⟩ ∧
    (afterChecked (fresh [0x55, 1])).fault = some ⟨.unwrittenRegister, 0x10, some 0x55⟩ := by decide

/-! ### Other configurations (R7) -/

/-- An admissible map other than the default: ADD and SUB exchange their identifiers. -/
def swappedMap (m : Mnemonic) : Byte :=
  if m = .add then 0xA1 else if m = .sub then 0xA0 else opcodeMap m

theorem witness_DecodeOfEncode : OpcodeMap.Admissible swappedMap := by
  refine ⟨fun m => by cases m <;> decide, fun m m' => ?_⟩
  cases m <;> cases m' <;> decide

/-- Under it byte 0xA1 adds, and byte 0xA0 subtracts. -/
theorem test_configured_map :
    (afterWith swappedMap (start 200 100 0xF4 [0xA1, 0, 1])).reg 0 = 44 ∧
    (afterWith swappedMap (start 5 7 0xF4 [0xA0, 0, 1])).reg 0 = 254 := by decide

/-- A core configured with the other map and `SP_RESET` = 0x80 boots with that SP, runs, and stops on HLT. -/
theorem test_configured_core :
    (State.bootWith ⟨0x80, swappedMap⟩ [0x82, 0, 8, 0xA1, 0, 7, 1]).map
      (fun s => let t := runCyclesWith ⟨0x80, swappedMap⟩ 3 s; (s.sp, t.reg 0, t.run)) =
      some (0x80, 0x88, .halted) := by decide

/-! ### Ports, image and assembler -/

/-- R201's codes as the status port shows them, each after a cycle that faults: an illegal opcode, a zero divisor, a register
index above 7, a RET at SP = 255, and the two model-only faults. -/
theorem test_status_codes :
    (after State.reset).status = ⟨.faulted, 1, some ⟨.unsupportedOpcode, 0, some 0⟩⟩ ∧
    (after (start 5 0 0xF4 [0xA3, 0, 1])).status.code = 2 ∧ (after (start 0 0 0xF4 [0x82, 8, 0])).status.code = 3 ∧
    (after (start 0 0 0xFF [0x11])).status.code = 4 ∧ (afterChecked (fresh [0x54, 2])).status.code = 5 ∧
    (afterChecked { start 0 5 0xF4 [0x55, 1] with flWritten := false }).status.code = 6 := by decide

/-- P1, its end state: HALTED, pc 5, R0 = 8, out = [8], 3 cycles. -/
theorem test_print8 :
    (State.boot [0x82, 0, 8, 0x47, 0, 1]).map (fun s => (runCycles 3 s).status) = some ⟨.halted, 0, none⟩ ∧
    (State.boot [0x82, 0, 8, 0x47, 0, 1]).map (fun s => (runCycles 3 s).out) = some [8] := by decide

/-- V-FET-5's state seen through the inspection port: bytes above 255 absent, only SP written. -/
theorem test_inspect :
    ({ State.reset with pc := 255 } : State).inspect =
      ⟨255, [some 0, none, none], [none, none, none, none, none, none, none, some 0xF4]⟩ := by decide

/-- R85's example image, its first and third lines, with a comment line between. -/
theorem test_image :
    parseImage [['1', '0', '0', '0', '0', '0', '1', '0', ' ', '#'], ['#', '1'], ['0', '0', '0', '0', '1', '0', '0', '0']] =
      some [0x82, 8] := by decide

/-- R86's first example: `LDI R0,8; PRN R0`. -/
theorem test_assemble :
    assembleText ['L', 'D', 'I', ' ', 'R', '0', ',', '8', ';', ' ', 'P', 'R', 'N', ' ', 'R', '0'] =
      some [0x82, 0, 8, 0x47, 0] := by decide

theorem test_assemble_sp_and_hex :
    assembleText ['L', 'D', 'I', ' ', 'S', 'P', ',', ' ', '0', 'x', 'F', '4', '\n', 'R', 'E', 'T'] =
      some [0x82, 7, 0xF4, 0x11] := by decide

/-- The host's fetch word runs as the first instruction after reset. -/
theorem test_withFetchWord : (after (State.reset.withFetchWord 24 0x080082)).reg 0 = 8 := by decide

/-! ### Witnesses: for each obligation with hypotheses, concrete data that meet them all, clause by clause, at the ends of
their ranges. An obligation whose only hypotheses are that operand bytes name registers is under `witness_operands`. -/

/-- The empty image, the longest image that fits, and the first that does not. -/
theorem witness_BootLoadsImage :
    ([] : List Byte).length ≤ 256 ∧ (List.replicate 256 (1 : Byte)).length ≤ 256 ∧
    256 < (List.replicate 257 (1 : Byte)).length := by
  rw [List.length_replicate, List.length_replicate]
  exact ⟨Nat.zero_le _, Nat.le_refl _, Nat.lt_succ_self _⟩

/-- A state without a record, and one with a record of each kind. -/
theorem witness_StatusPortShows :
    State.reset.fault = none ∧
    ∀ k : FaultKind, ∃ f, (State.reset.enterFault k).fault = some f ∧ f.kind = k :=
  ⟨rfl, fun _ => ⟨_, rfl, rfl⟩⟩

theorem witness_ResetStateAsSpecified :
    State.resetWith 0x80 = State.resetWith 0x80 ∧ ∀ i ∈ [(0 : Fin 8), 6], i ≠ 7 := ⟨rfl, by decide⟩

theorem witness_InspectionPortShows : (0 : Nat) < 3 ∧ (2 : Nat) < 3 := by decide

theorem witness_EncodeOfDecode :
    OpcodeMap.Admissible swappedMap ∧ decodeWith swappedMap [0xA1, 1, 8, 9] = .ok (.add 1 8, [9]) :=
  ⟨witness_DecodeOfEncode, by decide⟩

/-- HLT at 253, the last address an instruction can start at. -/
def haltAt253 : State := { State.reset with mem := [(253, 0x01)], pc := 253 }

theorem witness_StepRunsDecodedInstruction :
    haltAt253.run = .running ∧ haltAt253.pc ≤ 253 ∧
    decodeWith swappedMap [haltAt253.mem.read haltAt253.pc, haltAt253.mem.read (haltAt253.pc + 1),
      haltAt253.mem.read (haltAt253.pc + 2)] = .ok (.hlt, [0, 0]) := by decide

theorem witness_FetchBoundsAndBytes :
    ∀ p ∈ [(256 : Nat), 255, 254, 253], ({ State.reset with pc := p } : State).run = .running := by decide

/-- Under an admissible map, and under the default one. -/
theorem witness_IllegalOpcodesRaiseUnsupported :
    (OpcodeMap.Admissible swappedMap ∧ State.reset.run = .running ∧ State.reset.pc ≤ 253 ∧
      ∀ m, swappedMap m ≠ State.reset.mem.read State.reset.pc) ∧
    State.reset.run = .running ∧ State.reset.pc ≤ 253 ∧
    State.reset.mem.read State.reset.pc ∉ ([0x01, 0x11, 0x45, 0x46, 0x47, 0x50, 0x54, 0x55, 0x56, 0x65, 0x66, 0x69, 0x82,
      0xA0, 0xA1, 0xA2, 0xA3, 0xA4, 0xA7, 0xA8, 0xAA, 0xAB, 0xAC, 0xAD] : List Byte) :=
  ⟨⟨witness_DecodeOfEncode, rfl, by decide, fun m => by cases m <;> decide⟩, by decide⟩

theorem witness_HaltedAndFaultedHaveNoStep :
    (after haltAt253).run = .halted ∧ (after State.reset).run = .faulted := by decide

theorem witness_FaultEntryIsPrecise :
    stepWith swappedMap State.reset = .next (afterWith swappedMap State.reset) ∧
    (afterWith swappedMap State.reset).run = .faulted := ⟨rfl, by decide⟩

/-- The first index above the registers, as either operand, and the last. -/
theorem witness_RegisterIndexOutOfBounds :
    (8 : Byte) ∈ (Instr.add 8 0).registerOperands ∧ (8 : Byte) ∈ (Instr.add 0 8).registerOperands ∧
    (255 : Byte) ∈ (Instr.pop 255).registerOperands ∧ 7 < (8 : Byte).toNat ∧ 7 < (255 : Byte).toNat := by decide

theorem witness_MemoryAccessors :
    255 < 256 ∧ 255 ≤ 255 ∧ (start 0 0 0xF4 [0x01]).mem.wf = true := by decide

/-- For AddSubMulResults, IncDecNotResults, AndOrXorBits, ShlShrResults, CmpSetsFlag, LdiLoadsImmediate, PrnEmitsRegister,
JmpJumps and ConditionalJumps: operand bytes that name R0 and R7, in any state. -/
theorem witness_operands :
    (0 : Byte).toNat = (0 : Fin 8).val ∧ (7 : Byte).toNat = (7 : Fin 8).val := by decide

theorem witness_DivModResults :
    (0 : Byte).toNat = (0 : Fin 8).val ∧ (1 : Byte).toNat = (1 : Fin 8).val ∧ (start 7 1 0xF4 []).reg 1 ≠ 0 := by decide

theorem witness_DivisionByZeroRaises :
    (0 : Byte).toNat = (0 : Fin 8).val ∧ (1 : Byte).toNat = (1 : Fin 8).val ∧ (start 7 0 0xF4 []).reg 1 = 0 := by decide

/-- SP = 1: the push goes to address 0. -/
theorem witness_PushStoresAtNewSp :
    (0 : Byte).toNat = (0 : Fin 8).val ∧ (7 : Byte).toNat = (7 : Fin 8).val ∧ (start 7 0 1 [0x45, 0]).sp ≠ 0 ∧
    (start 7 0 1 [0x45, 0]).mem.wf = true := by decide

/-- SP = 254 for a register other than R7; a popped byte of 254 for R7. -/
theorem witness_PopLoadsFromSp :
    ((0 : Byte).toNat = (0 : Fin 8).val ∧ (0 : Fin 8) ≠ spIndex ∧ (start 0 0 254 []).sp ≠ 255) ∧
    ((7 : Byte).toNat = (7 : Fin 8).val ∧ (7 : Fin 8) = spIndex ∧
      (start 0 0 0x10 [254]).mem.read (start 0 0 0x10 [254]).sp.toNat ≠ 255) := by decide

/-- A RUNNING state of the invariant, with code in memory. -/
theorem start_inv : (start 0 0 0xF4 [0x01]).Inv where
  memory := by decide
  pcRange := by decide
  recordIffFaulted := by decide
  recordContext := fun _ h => nomatch h

theorem witness_HltHalts : (start 0 0 0xF4 [0x01]).Inv ∧ (start 0 0 0xF4 [0x01]).run = .running := ⟨start_inv, rfl⟩

/-- SP = 1 and p = 253 together. -/
theorem witness_CallPushesReturnAddress :
    (7 : Byte).toNat = (7 : Fin 8).val ∧ ({ haltAt253 with regs := #v[0, 0, 0, 0, 0, 0, 0, 1] } : State).sp ≠ 0 ∧
    haltAt253.mem.wf = true ∧ haltAt253.pc ≤ 253 := by decide

theorem witness_RetPopsPc : (start 0 0 254 [0x11]).sp ≠ 255 ∧ (start 0 0 0 [0x11]).sp ≠ 255 := by decide

theorem witness_StackBoundsRaised :
    ((0 : Byte).toNat = (0 : Fin 8).val ∧ (start 1 0 0 []).sp = 0) ∧
    ((0 : Fin 8) ≠ spIndex ∧ (start 1 0 255 []).sp = 255) ∧
    ((7 : Byte).toNat = (7 : Fin 8).val ∧ (7 : Fin 8) = spIndex ∧
      (start 0 0 0x10 [255]).mem.read (start 0 0 0x10 [255]).sp.toNat = 255) := by decide

theorem witness_StackPointerOperandIsSequential :
    (start 0 0 1 [0x45, 7]).mem.wf = true ∧ (start 0 0 1 [0x45, 7]).sp ≠ 0 ∧
    (start 0 0 1 [0x45, 7]).mem.read (start 0 0 1 [0x45, 7]).sp.toNat ≠ 255 ∧ (start 0 0 1 [0x45, 7]).pc ≤ 253 := by decide

/-- PUSH R0, then a state that differs in R0 alone. -/
theorem witness_PushThenPopRestores :
    let s := start 42 0 0xF4 [0x45, 0]
    let t := after s
    let u := t.setReg 0 9
    (0 : Byte).toNat = (0 : Fin 8).val ∧ (0 : Fin 8) ≠ spIndex ∧ s.mem.wf = true ∧ s.sp ≠ 0 ∧
      exec (.push 0) s = .next t ∧ u.sp = t.sp ∧ u.mem.read u.sp.toNat = t.mem.read t.sp.toNat :=
  ⟨by decide, by decide, by decide, by decide, rfl, by decide, by decide⟩

/-- CALL R1, then a state that differs in R0 alone. -/
theorem witness_CallThenRetReturns :
    let s := start 0 11 0xF4 [0x50, 1]
    let t := after s
    let u := t.setReg 0 9
    (1 : Byte).toNat = (1 : Fin 8).val ∧ s.mem.wf = true ∧ s.sp ≠ 0 ∧ s.pc ≤ 253 ∧
      exec (.call 1) s = .next t ∧ u.sp = t.sp ∧ u.mem.read u.sp.toNat = t.mem.read t.sp.toNat :=
  ⟨by decide, by decide, by decide, by decide, rfl, by decide, by decide⟩

/-- The PUSH of program P8: SP is one above the next opcode. -/
theorem witness_CodeStoreSeenByNextFetch :
    let s := start 1 0 0x13 [0x45, 0, 0x47, 0]
    s.run = .running ∧ s.mem.wf = true ∧ s.pc ≤ 251 ∧
      decodeWith swappedMap [s.mem.read s.pc, s.mem.read (s.pc + 1), s.mem.read (s.pc + 2)] = .ok (.push 0, [0x47]) ∧
      (0 : Byte).toNat = (0 : Fin 8).val ∧ (0 : Fin 8) ≠ spIndex ∧ s.sp.toNat = s.pc + 3 := by decide

theorem witness_JumpToSelfLoops :
    let s := start 0x10 0 0xF4 [0x54, 0]
    OpcodeMap.Admissible swappedMap ∧ s.run = .running ∧ s.pc ≤ 253 ∧ s.mem.read s.pc = swappedMap .jmp ∧
      (s.mem.read (s.pc + 1)).toNat = (0 : Fin 8).val ∧ (s.reg 0).toNat = s.pc := ⟨witness_DecodeOfEncode, by decide⟩

/-! A cycle under an admissible map, for the whole-machine rules. -/

/-- A cycle of this state under `swappedMap` answers a next state. -/
abbrev Runs (s : State) : Prop := stepWith swappedMap s = .next (afterWith swappedMap s)

theorem witness_StepKeepsInvariant : (start 0 0 0xF4 [0x01]).Inv ∧ Runs (start 0 0 0xF4 [0x01]) := ⟨start_inv, rfl⟩

theorem witness_HaltedOnlyByHlt :
    let s := start 0 0 0xF4 [0x01]
    OpcodeMap.Admissible swappedMap ∧ Runs s ∧ (afterWith swappedMap s).run = .halted :=
  ⟨witness_DecodeOfEncode, rfl, by decide⟩

theorem witness_FlagsChangeOnlyByCmp :
    let s := start 5 3 0xF4 [0xA7, 0, 1]
    OpcodeMap.Admissible swappedMap ∧ Runs s ∧ ¬KeepsFlags s (afterWith swappedMap s) :=
  ⟨witness_DecodeOfEncode, rfl, fun h => absurd h.1 (by decide)⟩

theorem witness_OutputGrowsOnlyByPrn :
    let s := start 255 0 0xF4 [0x47, 0]
    OpcodeMap.Admissible swappedMap ∧ Runs s ∧ (afterWith swappedMap s).out ≠ s.out :=
  ⟨witness_DecodeOfEncode, rfl, by decide⟩

theorem witness_MemoryChangesOnlyByStackStore :
    let s := start 42 0 1 [0x45, 0]
    OpcodeMap.Admissible swappedMap ∧ Runs s ∧ (afterWith swappedMap s).mem.read 0 ≠ s.mem.read 0 :=
  ⟨witness_DecodeOfEncode, rfl, by decide⟩

/-- R7 by a PUSH, and the named register by an ADD. -/
theorem witness_RegistersChangeByTable :
    let s := start 42 0 0xF4 [0x45, 0]
    let u := start 1 2 0xF4 [0xA1, 0, 1]
    OpcodeMap.Admissible swappedMap ∧ (Runs s ∧ (afterWith swappedMap s).reg 7 ≠ s.reg 7) ∧
      Runs u ∧ (afterWith swappedMap u).reg 0 ≠ u.reg 0 :=
  ⟨witness_DecodeOfEncode, ⟨rfl, by decide⟩, rfl, by decide⟩

theorem witness_PcAdvancesByOperandCount :
    let s := start 1 2 0xF4 [0xA0, 0, 1]
    Runs s ∧ (afterWith swappedMap s).run = .running ∧ (s.mem.read s.pc).getLsbD 4 = false :=
  ⟨rfl, by decide, by decide⟩

/-- R0 unwritten; R7 written with R0 unwritten as operand b; R7 written with FL unwritten. -/
theorem witness_CheckedStepRaisesUnwritten :
    ((0 : Byte).toNat = (0 : Fin 8).val ∧ registerWritten State.reset 0 = false) ∧
    ((7 : Byte).toNat = (7 : Fin 8).val ∧ registerWritten State.reset 7 = true ∧ State.reset.flWritten = false) := by decide

/-- Every register and FL written: R0 and R7 as operands read, and FL by JEQ. -/
theorem start_readsOnlyWritten (r0 r1 sp : Byte) (bytes : List Byte) :
    ReadsOnlyWritten (start r0 r1 sp bytes) (.add 0 7) ∧ ReadsOnlyWritten (start r0 r1 sp bytes) (.jeq 0) := by
  have h : ∀ r : Fin 8, registerWritten (start r0 r1 sp bytes) r = true := fun r => by
    fin_cases r <;> rfl
  exact ⟨⟨fun r _ => h r, fun r _ => h r⟩, fun r _ => h r, rfl⟩

/-- Under `swappedMap`, ADD R0, R7 at pc. -/
def addR7 : State := start 1 2 0xF4 [0xA1, 0, 7]

/-- A state that decodes; at reset, where only R7 is written, an instruction that reads it alone; JEQ with FL written. -/
theorem witness_CheckedStepRunsDecodedInstruction :
    (addR7.run = .running ∧ addR7.pc ≤ 253 ∧
      decodeWith swappedMap [addR7.mem.read addR7.pc, addR7.mem.read (addR7.pc + 1), addR7.mem.read (addR7.pc + 2)] =
        .ok (.add 0 7, [])) ∧
    ReadsOnlyWritten State.reset (.push 7) ∧ ReadsOnlyWritten (start 1 2 0xF4 []) (.jeq 0) :=
  ⟨by decide, fun r h => by revert r; decide, (start_readsOnlyWritten 1 2 0xF4 []).2⟩

/-- A stop, a next state, and a decoded instruction that reads only what is written. -/
theorem witness_CheckedStepAgreesWithStep :
    stepCheckedWith swappedMap haltAt253.halt = .fault .noStepHalted ∧
    stepCheckedWith swappedMap State.reset = .next (afterChecked State.reset) ∧
    fetchDecodeWith swappedMap addR7 = .ok (.add 0 7) ∧
    ∀ i, fetchDecodeWith swappedMap addR7 = .ok i → ReadsOnlyWritten addR7 i := by
  have h : fetchDecodeWith swappedMap addR7 = .ok (.add 0 7) := by decide
  refine ⟨rfl, rfl, h, fun i hi => ?_⟩
  rw [h, Except.ok.injEq] at hi
  exact hi ▸ (start_readsOnlyWritten 1 2 0xF4 [0xA1, 0, 7]).1

/-- Two states that differ in R0, unwritten, and in FL, unwritten: RUNNING, and HALTED. -/
theorem witness_UnwrittenValuesCannotMatter :
    AgreeOnWritten State.reset { State.reset with regs := #v[9, 0, 0, 0, 0, 0, 0, 0xF4], fl := .E } ∧
    stepCheckedWith swappedMap State.reset = .next (afterChecked State.reset) ∧
    AgreeOnWritten haltAt253.halt { haltAt253.halt with regs := #v[9, 0, 0, 0, 0, 0, 0, 0xF4], fl := .E } ∧
    stepCheckedWith swappedMap haltAt253.halt = .fault .noStepHalted := by
  refine ⟨⟨rfl, rfl, rfl, rfl, rfl, rfl, rfl, by decide, by decide⟩, rfl,
    ⟨rfl, rfl, rfl, rfl, rfl, rfl, rfl, by decide, by decide⟩, rfl⟩

end Sys2Proof.Tests
end

section
/-! The scope family: the configuration `SP_RESET` and `OPCODE_MAP` (R7) and the machine the host runs. -/

namespace Sys2Proof.Machine

/-- Settles O1: `core`, `step`, `stepChecked` and `State.reset` are each defined at the two defaults, 0xF4 and `opcodeMap`,
which are the fields of `Configuration.default`. -/
theorem defaultMachineIsConfigured : Obligations.DefaultMachineIsConfigured := by
  unfold Obligations.DefaultMachineIsConfigured
  have hcore : core = coreWith Configuration.default := rfl
  have hstep (s : State) : step s = stepWith Configuration.default.opcodeMap s := rfl
  have hchecked (s : State) : stepChecked s = stepCheckedWith Configuration.default.opcodeMap s := rfl
  have hreset : State.reset = State.resetWith Configuration.default.spReset := rfl
  have hsp : Configuration.default.spReset = 0xF4 := rfl
  exact ⟨hcore, hstep, hchecked, hreset, hsp⟩

end Sys2Proof.Machine
end

section
/-! The state family: reset, the ports, the accessors, and what a cycle can do to each component of the state. -/

namespace Sys2Proof.Machine

variable {map : OpcodeMap} {s t : State} {ins : Instr}

/-! ### Reset and boot (R30, R41, R230) -/

@[simp] theorem State.resetWith_reg_r7 (spReset : Byte) : (State.resetWith spReset).reg 7 = spReset := rfl

theorem registerWritten_resetWith (spReset : Byte) (i : Fin 8) :
    registerWritten (State.resetWith spReset) i = decide (i = 7) := by
  fin_cases i <;> rfl

/-- A canonical memory put into the reset state satisfies the invariant. -/
theorem State.resetWith_setMem_inv (spReset : Byte) {m : Memory} (hm : m.wf = true) :
    ((State.resetWith spReset).setMem m).Inv where
  memory := hm
  pcRange := Nat.zero_le 256
  recordIffFaulted := by simp [State.resetWith]
  recordContext := by simp [State.resetWith]

/-- Settles O2: the reset state's fields, read off; the written bits by `registerWritten_resetWith`. -/
theorem resetStateAsSpecified : Obligations.ResetStateAsSpecified := by
  unfold Obligations.ResetStateAsSpecified
  refine ⟨?_, rfl⟩
  rintro spReset s rfl
  have hwritten (i : Fin 8) (hi : i ≠ 7) : registerWritten (State.resetWith spReset) i = false := by
    simp [registerWritten_resetWith, hi]
  exact ⟨Memory.read_nil, State.resetWith_reg_r7 spReset, rfl, rfl, rfl, rfl, hwritten, rfl⟩

/-- Settles O3: the reset state is itself with its empty memory, which is canonical. -/
theorem resetSatisfiesInvariant : Obligations.ResetSatisfiesInvariant := by
  unfold Obligations.ResetSatisfiesInvariant
  exact fun spReset => State.resetWith_setMem_inv spReset (m := []) rfl

/-- Settles O4: the memory after booting is the image stored from address 0 into the empty memory. -/
theorem bootLoadsImage : Obligations.BootLoadsImage := by
  unfold Obligations.BootLoadsImage
  intro c image
  refine ⟨fun hlen => ?_, fun hlen => if_neg (Nat.not_le.2 hlen)⟩
  have hroom : 0 + image.length ≤ 256 := by omega
  have hread := Memory.read_writeList (m := []) image hroom rfl
  refine ⟨_, if_pos hlen, fun k hk => ?_, fun k hk => ?_, rfl,
    State.resetWith_setMem_inv c.spReset (Memory.wf_writeList image hroom rfl)⟩
  · simp [hread, hk]
  · simp [hread, Nat.not_lt.2 hk]

/-! ### The status and inspection ports (R44, R46) -/

/-- Settles O5: the code is 0 without a record and the record's kind's code with one. -/
theorem statusPortShows : Obligations.StatusPortShows := by
  unfold Obligations.StatusPortShows
  intro s
  refine ⟨rfl, rfl, fun hnone => by simp [State.status, hnone], fun f hf => ?_⟩
  have hcode : s.status.code = f.kind.code := by simp [State.status, hf]
  rw [hcode]
  refine ⟨?_, ?_, ?_, ?_, ?_, ?_⟩ <;> intro hk <;> rw [hk] <;> rfl

theorem inspectByte_eq (s : State) (a : Nat) :
    inspectByte s a = if a ≤ 255 then some (s.mem.read a) else none := by
  by_cases h : a ≤ 255
  · rw [inspectByte, if_neg (Nat.not_lt.2 h), if_pos h]
  · rw [inspectByte, if_pos (Nat.not_le.1 h), if_neg h]

/-- Settles O6: the port's three bytes one by one, and its register list by index. -/
theorem inspectionPortShows : Obligations.InspectionPortShows := by
  unfold Obligations.InspectionPortShows
  intro s
  refine ⟨rfl, fun k hk => ?_, fun i => ?_⟩
  · rw [← inspectByte_eq]
    interval_cases k <;> rfl
  · simp [State.inspect, inspectRegister]

/-! ### The register and memory accessors (R21, R23, R24) -/

/-- Settles O16: by what a register read and a written bit are after a register write. -/
theorem registerWriteWraps : Obligations.RegisterWriteWraps := by
  unfold Obligations.RegisterWriteWraps
  intro s i v
  refine ⟨by rw [State.reg_setReg_self, BitVec.toNat_ofNat], by simp [registerWritten_setReg], fun r hr => ?_⟩
  have hne : r ≠ i := by simpa using hr
  exact ⟨State.reg_setReg_ne s i v hne, by simp [registerWritten_setReg, hne]⟩

/-- A register operand above 7 makes an instruction not well formed. -/
theorem wellFormed_eq_false_of_operand {r : Byte} (hr : r ∈ ins.registerOperands) (h : 7 < r.toNat) :
    ins.wellFormed = false :=
  List.all_eq_false.2 ⟨r, hr, by simpa using h⟩

/-- Settles O17: such an instruction is not well formed, so it answers the entry of `OutOfBounds`. -/
theorem registerIndexOutOfBounds : Obligations.RegisterIndexOutOfBounds := by
  unfold Obligations.RegisterIndexOutOfBounds
  exact fun s i r hr h => ⟨_, exec_of_not_wellFormed (wellFormed_eq_false_of_operand hr h), rfl⟩

theorem memWrite_of_le (s : State) {p : Nat} (v : Byte) (h : p ≤ 255) :
    memWrite s p v = .ok (s.setMem (s.mem.write p v)) :=
  if_neg (Nat.not_lt.2 h)

theorem memWrite_of_gt (s : State) {p : Nat} (v : Byte) (h : 255 < p) : memWrite s p v = .error .outOfBounds :=
  if_pos h

/-- Settles O18: by the accessors' answers in and out of range and the laws of a memory write. -/
theorem memoryAccessors : Obligations.MemoryAccessors := by
  unfold Obligations.MemoryAccessors
  intro s adr v
  refine ⟨fun h => ⟨memRead_of_gt s h, memWrite_of_gt s v h⟩, fun h => ⟨memRead_of_le s h, ?_⟩⟩
  exact ⟨_, memWrite_of_le s v h, rfl, fun b hb => Memory.read_write_ne s.mem adr v hb,
    fun hm => ⟨Memory.read_write_self adr v hm, Memory.wf_write v h hm⟩⟩

/-! ### What a completed instruction does to the state

The 24 instructions complete in eight ways. Each rule about a component of the state needs these eight cases only. -/

/-- The mnemonics whose first operand is a destination register (R25). -/
def destinationMnemonics : List Mnemonic :=
  [.ldi, .pop, .add, .sub, .mul, .div, .mod, .inc, .dec, .and, .or, .xor, .not, .shl, .shr]

/-- The change an instruction that completes makes to the state; values are named only where a rule speaks of them. -/
inductive Effect (s : State) : Instr → State → Prop where
  | halt : Effect s .hlt s.halt
  | writeReg {ins : Instr} {a : Byte} {i : Fin 8} {v n : Nat} (hm : ins.mnemonic ∈ destinationMnemonics)
      (hop : ins.operandBytes.head? = some a) (ha : a.toNat = i.val) (hn : n ≤ 2) :
      Effect s ins ((s.setReg i v).advance n)
  | jump {ins : Instr} {p : Nat} (hp : p ≤ 255 ∨ p = s.pc + 2) : Effect s ins (s.setPc p)
  | setFlag {a b : Byte} {f : Flag} : Effect s (.cmp a b) ((s.setFlag f).advance 2)
  | emit {a : Byte} {i : Fin 8} (ha : a.toNat = i.val) : Effect s (.prn a) ((s.emit (s.reg i)).advance 1)
  | push {ins : Instr} {v : Byte} {p : Nat} (hm : ins.mnemonic = .push ∨ ins.mnemonic = .call)
      (hp : p ≤ 255 ∨ p = s.pc + 2) : Effect s ins ((s.pushByte v).setPc p)
  | pop {a : Byte} {i : Fin 8} {v w : Nat} (ha : a.toNat = i.val) :
      Effect s (.pop a) (((s.setReg i v).setReg spIndex w).advance 1)
  | ret {v : Nat} {p : Byte} : Effect s .ret ((s.setReg spIndex v).setPc p.toNat)

theorem byte_toNat_le (v : Byte) : v.toNat ≤ 255 := by omega

theorem effect_of_completes (h : Completes s ins t) : Effect s ins t := by
  cases h with
  | hlt => exact .halt
  | prn ha => exact .emit ha
  | cmp _ _ => exact .setFlag
  | push _ _ => exact .push (.inl rfl) (.inr rfl)
  | call _ _ => exact .push (.inr rfl) (.inl (byte_toNat_le _))
  | pop ha _ => exact .pop ha
  | ret _ => exact .ret
  | jmp _ => exact .jump (.inl (byte_toNat_le _))
  | jeq _ | jne _ =>
    split
    · exact .jump (.inl (byte_toNat_le _))
    · exact .jump (.inr rfl)
  | ldi ha | inc ha | dec ha | not ha => exact .writeReg (by simp [Instr.mnemonic, destinationMnemonics]) rfl ha (by omega)
  | add ha _ | sub ha _ | mul ha _ | and ha _ | or ha _ | xor ha _ | shl ha _ | shr ha _ =>
    exact .writeReg (by simp [Instr.mnemonic, destinationMnemonics]) rfl ha (by omega)
  | div ha _ _ | mod ha _ _ => exact .writeReg (by simp [Instr.mnemonic, destinationMnemonics]) rfl ha (by omega)

theorem Effect.fault_eq (h : Effect s ins t) : t.fault = s.fault := by cases h <;> rfl

/-- The run state changes by HLT alone. -/
theorem Effect.run_cases (h : Effect s ins t) : t.run = s.run ∨ ins = .hlt ∧ t = s.halt := by
  cases h with
  | halt => exact .inr ⟨rfl, rfl⟩
  | writeReg | jump | setFlag | emit | push | pop | ret => exact .inl rfl

theorem Effect.wf_mem (h : Effect s ins t) (hm : s.mem.wf = true) : t.mem.wf = true := by
  cases h with
  | push => exact Memory.wf_write _ (byte_toNat_le _) hm
  | halt | writeReg | jump | setFlag | emit | pop | ret => exact hm

/-- From a pc a fetch can complete at, pc stays within the range of R29. -/
theorem Effect.pc_le (h : Effect s ins t) (hpc : s.pc ≤ 253) : t.pc ≤ 256 := by
  cases h with
  | halt => exact le_trans hpc (by decide)
  | jump | push | ret =>
    simp only [State.setPc_pc]
    omega
  | writeReg | setFlag | emit | pop =>
    simp only [State.advance_pc, State.setReg_pc, State.setFlag_pc, State.emit_pc]
    omega

theorem Effect.keepsFlags_or_cmp (h : Effect s ins t) : KeepsFlags s t ∨ ins.mnemonic = .cmp := by
  cases h with
  | setFlag => exact .inr rfl
  | halt | writeReg | jump | emit | push | pop | ret => exact .inl ⟨rfl, rfl⟩

theorem Effect.out_cases (h : Effect s ins t) :
    t.out = s.out ∨ ∃ (a : Byte) (i : Fin 8), ins = .prn a ∧ a.toNat = i.val ∧ t.out = s.out ++ [s.reg i] := by
  cases h with
  | emit ha => exact .inr ⟨_, _, rfl, ha, rfl⟩
  | halt | writeReg | jump | setFlag | push | pop | ret => exact .inl rfl

/-- The register a register write changes is the one written. -/
theorem eq_of_reg_setReg_ne {r i : Fin 8} {v : Nat} (h : (s.setReg i v).reg r ≠ s.reg r) : r = i :=
  by_contra fun hne => h (s.reg_setReg_ne i v hne)

/-- A register that changes is R7 under a stack instruction, or the destination register (R25, R26). -/
theorem Effect.reg_cases (h : Effect s ins t) {r : Fin 8} (hr : t.reg r ≠ s.reg r) :
    (r = spIndex ∧ ins.mnemonic ∈ ([.push, .pop, .call, .ret] : List Mnemonic)) ∨
      ∃ a, ins.operandBytes.head? = some a ∧ a.toNat = r.val ∧ ins.mnemonic ∈ destinationMnemonics := by
  cases h with
  | halt | jump | setFlag | emit => exact absurd rfl hr
  | writeReg hm hop ha =>
    obtain rfl := eq_of_reg_setReg_ne hr
    exact .inr ⟨_, hop, ha, hm⟩
  | push hm =>
    refine .inl ⟨eq_of_reg_setReg_ne hr, ?_⟩
    rcases hm with hm | hm <;> simp [hm]
  | ret => exact .inl ⟨eq_of_reg_setReg_ne hr, by decide⟩
  | @pop a i v w ha =>
    by_cases hsp : r = spIndex
    · exact .inl ⟨hsp, by simp [Instr.mnemonic]⟩
    · rw [State.advance_reg, State.reg_setReg_ne _ _ _ hsp] at hr
      obtain rfl := eq_of_reg_setReg_ne hr
      exact .inr ⟨a, rfl, ha, by simp [destinationMnemonics, Instr.mnemonic]⟩

/-! ### What a cycle does to the state -/

/-- Under an admissible map the only byte that decodes to a mnemonic is the map's (R74, R76). -/
theorem eq_map_of_decodeOpcodeWith (hadm : map.Admissible) {op : Byte} {m : Mnemonic}
    (h : decodeOpcodeWith map op = .ok m) : op = map m := by
  obtain ⟨hfam, hid, hcount⟩ := decodeOpcodeWith_ok h
  obtain ⟨hmapFam, hmapCount⟩ := hadm.1 m
  exact opcode_ext (hfam.trans hmapFam.symm) (by simp [hfam]) (hcount.symm.trans hmapCount.symm) hid.symm

/-- The first operand byte of what three bytes decode to is the second of them (R52, R78). -/
theorem head_operandBytes_of_decodeWith {op a b r : Byte} {rest : List Byte}
    (h : decodeWith map [op, a, b] = .ok (ins, rest)) (hr : ins.operandBytes.head? = some r) : a = r := by
  cases hm : decodeOpcodeWith map op with
  | error e => simp [decodeWith, hm] at h
  | ok m =>
    cases m with
    | hlt | ret =>
      obtain ⟨rfl, -⟩ : _ = ins ∧ _ := by simpa [decodeWith, hm, Mnemonic.format] using h
      cases hr
    | ldi | prn | push | pop | call | jmp | jeq | jne | add | sub | mul | div | mod | inc | dec | cmp | and | not | or
    | xor | shl | shr =>
      obtain ⟨rfl, -⟩ : _ = ins ∧ _ := by simpa [decodeWith, hm, Mnemonic.format] using h
      exact Option.some.inj hr

theorem head_operandBytes_of_fetchDecodeWith {r : Byte} (h : fetchDecodeWith map s = .ok ins)
    (hr : ins.operandBytes.head? = some r) : s.mem.read (s.pc + 1) = r := by
  rcases fetchDecodeWith_cases map s with ⟨-, hf⟩ | ⟨-, -, hf⟩ | ⟨-, i, rest, hd, -, hf⟩
  · simp [hf] at h
  · simp [hf] at h
  · obtain rfl : i = ins := by simpa [hf] using h
    exact head_operandBytes_of_decodeWith hd hr

/-- A cycle under an admissible map enters a fault, or has the effect of the instruction whose bytes stand at pc. -/
theorem stepWith_effect (hadm : map.Admissible) (h : stepWith map s = .next t) :
    (∃ k, t = s.enterFault k) ∨
      ∃ ins, s.mem.read s.pc = map ins.mnemonic ∧
        (∀ r, ins.operandBytes.head? = some r → s.mem.read (s.pc + 1) = r) ∧ Effect s ins t := by
  obtain ⟨-, ⟨k, -, ht⟩ | ⟨ins, hf, -, hm, hc | ⟨k, -, ht⟩⟩⟩ := stepWith_cases h
  · exact .inl ⟨k, ht⟩
  · exact .inr ⟨ins, eq_map_of_decodeOpcodeWith hadm hm, fun r => head_operandBytes_of_fetchDecodeWith hf,
      effect_of_completes hc⟩
  · exact .inl ⟨k, ht⟩

/-- Entering a fault keeps the invariant: the record holds the pc and the opcode byte at it. -/
theorem State.Inv.enterFault (hs : s.Inv) (k : FaultKind) : (s.enterFault k).Inv where
  memory := hs.memory
  pcRange := hs.pcRange
  recordIffFaulted := by simp
  recordContext := by
    rintro f ⟨⟩
    exact ⟨rfl, rfl⟩

theorem State.Inv.fault_eq_none (hs : s.Inv) (hrun : s.run = .running) : s.fault = none := by
  simpa [hrun] using hs.recordIffFaulted

/-- A completed instruction keeps the invariant: there is no record before it or after it, and no fault state. -/
theorem Effect.inv (h : Effect s ins t) (hs : s.Inv) (hrun : s.run = .running) (hpc : s.pc ≤ 253) : t.Inv := by
  have hnone : t.fault = none := h.fault_eq.trans (hs.fault_eq_none hrun)
  have hnot : t.run ≠ .faulted := by
    rcases h.run_cases with hr | ⟨-, rfl⟩
    · simp [hr, hrun]
    · simp
  exact ⟨h.wf_mem hs.memory, h.pc_le hpc, by simp [hnone, hnot], by simp [hnone]⟩

/-- Settles O41: a cycle enters a fault or completes an instruction fetched at a pc up to 253; both keep the invariant. -/
theorem stepKeepsInvariant : Obligations.StepKeepsInvariant := by
  unfold Obligations.StepKeepsInvariant
  intro map s t hs h
  obtain ⟨hrun, ⟨k, -, rfl⟩ | ⟨ins, -, hpc, -, hc | ⟨k, -, rfl⟩⟩⟩ := stepWith_cases h
  · exact hs.enterFault k
  · exact (effect_of_completes hc).inv hs hrun hpc
  · exact hs.enterFault k

/-- Settles O42: a cycle begins RUNNING, a fault entry ends FAULTED, and of the effects only HLT's moves the run state. -/
theorem haltedOnlyByHlt : Obligations.HaltedOnlyByHlt := by
  unfold Obligations.HaltedOnlyByHlt
  intro map hadm s t h ht
  obtain ⟨hrun, -⟩ := stepWith_cases h
  obtain ⟨k, rfl⟩ | ⟨ins, hop, -, he⟩ := stepWith_effect hadm h
  · simp at ht
  · obtain hsame | ⟨rfl, rfl⟩ := he.run_cases
    · simp [hsame, hrun] at ht
    · exact ⟨hop, rfl⟩

/-- Settles O43: neither a fault entry nor the effect of any instruction but CMP touches FL. -/
theorem flagsChangeOnlyByCmp : Obligations.FlagsChangeOnlyByCmp := by
  unfold Obligations.FlagsChangeOnlyByCmp
  intro map hadm s t h hne
  obtain ⟨k, rfl⟩ | ⟨ins, hop, -, he⟩ := stepWith_effect hadm h
  · exact absurd ⟨rfl, rfl⟩ hne
  · rw [hop, he.keepsFlags_or_cmp.resolve_left hne]

/-- Settles O44: of the effects only PRN's changes the output, by the register its operand byte names. -/
theorem outputGrowsOnlyByPrn : Obligations.OutputGrowsOnlyByPrn := by
  unfold Obligations.OutputGrowsOnlyByPrn
  intro map hadm s t h hne
  obtain ⟨k, rfl⟩ | ⟨ins, hop, harg, he⟩ := stepWith_effect hadm h
  · exact absurd rfl hne
  · obtain ⟨a, i, rfl, ha, hout⟩ := he.out_cases.resolve_left hne
    exact ⟨hop, i, by rw [harg a rfl, ha], hout⟩

/-- Settles O46: the two cases of `Effect.reg_cases`, with the bytes at pc and pc + 1. -/
theorem registersChangeByTable : Obligations.RegistersChangeByTable := by
  unfold Obligations.RegistersChangeByTable
  intro map hadm s t r h hne
  obtain ⟨k, rfl⟩ | ⟨ins, hop, harg, he⟩ := stepWith_effect hadm h
  · exact absurd rfl hne
  · rw [hop]
    obtain ⟨hsp, hm⟩ | ⟨a, ha, har, hm⟩ := he.reg_cases hne
    · exact .inl ⟨hsp, List.mem_map_of_mem hm⟩
    · exact .inr ⟨by rw [harg a ha, har], List.mem_map_of_mem hm⟩

/-! ### States that agree on what is written (R28, R33, R38)

Every update of the state keeps the agreement, and an instruction whose written check passes reads only where the states
agree; so it does the same to both. -/

theorem AgreeOnWritten.registerWritten_eq (h : AgreeOnWritten s t) (i : Fin 8) :
    registerWritten s i = registerWritten t i := by
  simp only [registerWritten, h.written]

theorem AgreeOnWritten.sp_eq (h : AgreeOnWritten s t) : s.sp = t.sp := h.regs spIndex (registerWritten_spIndex s)

theorem AgreeOnWritten.setReg (h : AgreeOnWritten s t) (i : Fin 8) (v : Nat) :
    AgreeOnWritten (s.setReg i v) (t.setReg i v) where
  mem := h.mem
  pc := h.pc
  run := h.run
  fault := h.fault
  out := h.out
  written := congrArg (markWritten · i) h.written
  flWritten := h.flWritten
  fl := h.fl
  regs r hr := by
    by_cases hri : r = i
    · subst hri; simp
    · have hs : registerWritten s r = true := by simpa [registerWritten_setReg, hri] using hr
      rw [State.reg_setReg_ne _ _ _ hri, State.reg_setReg_ne _ _ _ hri, h.regs r hs]

theorem AgreeOnWritten.setPc (h : AgreeOnWritten s t) (p : Nat) : AgreeOnWritten (s.setPc p) (t.setPc p) :=
  { h with pc := rfl }

theorem AgreeOnWritten.advance (h : AgreeOnWritten s t) (n : Nat) : AgreeOnWritten (s.advance n) (t.advance n) :=
  { h with pc := by simp [h.pc] }

theorem AgreeOnWritten.setFlag (h : AgreeOnWritten s t) (f : Flag) : AgreeOnWritten (s.setFlag f) (t.setFlag f) :=
  { h with flWritten := rfl, fl := fun _ => rfl }

theorem AgreeOnWritten.emit (h : AgreeOnWritten s t) (v : Byte) : AgreeOnWritten (s.emit v) (t.emit v) :=
  { h with out := by simp [h.out] }

theorem AgreeOnWritten.halt (h : AgreeOnWritten s t) : AgreeOnWritten s.halt t.halt := { h with run := rfl }

theorem AgreeOnWritten.enterFault (h : AgreeOnWritten s t) (k : FaultKind) :
    AgreeOnWritten (s.enterFault k) (t.enterFault k) :=
  { h with run := rfl, fault := by simp [State.opcodeAtPc, h.pc, h.mem] }

theorem AgreeOnWritten.pushed (h : AgreeOnWritten s t) : AgreeOnWritten s.pushed t.pushed := by
  rw [State.pushed, State.pushed, h.sp_eq]
  exact h.setReg _ _

theorem AgreeOnWritten.pushByte (h : AgreeOnWritten s t) (v : Byte) :
    AgreeOnWritten (s.pushByte v) (t.pushByte v) :=
  { h.pushed with mem := by simp [State.pushByte, h.mem, h.pushed.sp_eq] }

/-- A written operand of `s` still agrees after the decrement of SP. -/
theorem AgreeOnWritten.pushed_reg_eq (h : AgreeOnWritten s t) {i : Fin 8} (hi : registerWritten s i = true) :
    s.pushed.reg i = t.pushed.reg i :=
  h.pushed.regs i (by simp [State.pushed, registerWritten_setReg, hi])

/-! ### The written check (R106, R107, R208) -/

theorem AgreeOnWritten.writtenCheck_eq (h : AgreeOnWritten s t) (ins : Instr) :
    writtenCheck ins s = writtenCheck ins t := by
  have hone (c : OperandRole × Byte) : checkOperand s c = checkOperand t c := by
    obtain ⟨_ | _, r⟩ := c
    · simp only [checkOperand, h.registerWritten_eq]
    · rfl
  have hall (cs : List (OperandRole × Byte)) : checkOperands s cs = checkOperands t cs := by
    induction cs with
    | nil => rfl
    | cons c cs ih => simp only [checkOperands, hone, ih]
  simp only [writtenCheck, hall, h.flWritten]

/-- A sequence of two checks passes when both do. -/
theorem ok_of_seq_ok {x y : Except FaultKind Unit} (h : (x >>= fun _ => y) = .ok ()) : x = .ok () ∧ y = .ok () := by
  cases x with
  | error k => cases h
  | ok u => exact ⟨rfl, h⟩

theorem operandWritten_of_checkOperand {r : Byte} (h : checkOperand s (.src, r) = .ok ()) : OperandWritten s r := by
  intro i hi
  simpa [checkOperand, checkSrc_of_eq hi, bind, Except.bind] using h

theorem operandWritten_of_checkOperands {cs : List (OperandRole × Byte)} (h : checkOperands s cs = .ok ()) {r : Byte}
    (hr : (OperandRole.src, r) ∈ cs) : OperandWritten s r := by
  induction cs with
  | nil => cases hr
  | cons c cs ih =>
    obtain ⟨hc, hcs⟩ := ok_of_seq_ok h
    rcases List.mem_cons.1 hr with rfl | hr
    · exact operandWritten_of_checkOperand hc
    · exact ih hcs hr

/-- An instruction whose written check passes reads only what is written. -/
theorem readsOnlyWritten_of_writtenCheck (h : writtenCheck ins s = .ok ()) : ReadsOnlyWritten s ins := by
  obtain ⟨hops, hfl⟩ := ok_of_seq_ok h
  have src {r : Byte} (hr : (OperandRole.src, r) ∈ operandChecks ins) := operandWritten_of_checkOperands hops hr
  cases ins with
  | hlt | ret | ldi | pop => trivial
  | prn | push | call | jmp | inc | dec | not => exact src (by simp [operandChecks])
  | jeq | jne => exact ⟨src (by simp [operandChecks]), by simpa [readsFlags] using hfl⟩
  | add | sub | mul | div | mod | cmp | and | or | xor | shl | shr =>
    exact ⟨src (by simp [operandChecks]), src (by simp [operandChecks])⟩

/-! ### Two agreeing states take the same checked step -/

/-- What an instruction raises is decided by what it reads, SP and memory. -/
theorem AgreeOnWritten.raises (h : AgreeOnWritten s t) {k : FaultKind} (hw : ReadsOnlyWritten s ins)
    (hr : Raises s ins k) : Raises t ins k := by
  cases hr with
  | operand hwf => exact .operand hwf
  | div ha hb h0 => exact .div ha hb (h.regs _ (hw.2 _ hb) ▸ h0)
  | mod ha hb h0 => exact .mod ha hb (h.regs _ (hw.2 _ hb) ▸ h0)
  | push ha hsp => exact .push ha (h.sp_eq ▸ hsp)
  | call ha hsp => exact .call ha (h.sp_eq ▸ hsp)
  | pop ha hsp =>
    rw [(h.setReg _ _).sp_eq, h.mem, h.sp_eq] at hsp
    exact .pop ha hsp
  | ret hsp => exact .ret (h.sp_eq ▸ hsp)

/-- The same result of an agreeing register, written to a register of both states. -/
theorem AgreeOnWritten.unary (h : AgreeOnWritten s t) {i : Fin 8} (f : Byte → Nat) (n : Nat)
    (hi : registerWritten s i = true) :
    AgreeOnWritten ((s.setReg i (f (s.reg i))).advance n) ((t.setReg i (f (t.reg i))).advance n) := by
  rw [h.regs i hi]
  exact (h.setReg i _).advance n

/-- The same result of two agreeing registers, written to a register of both states. -/
theorem AgreeOnWritten.binary (h : AgreeOnWritten s t) {i j : Fin 8} (f : Byte → Byte → Nat) (n : Nat)
    (hi : registerWritten s i = true) (hj : registerWritten s j = true) :
    AgreeOnWritten ((s.setReg i (f (s.reg i) (s.reg j))).advance n)
      ((t.setReg i (f (t.reg i) (t.reg j))).advance n) := by
  rw [h.regs i hi, h.regs j hj]
  exact (h.setReg i _).advance n

/-- A jump that the same condition decides in both states. -/
theorem AgreeOnWritten.jump (h : AgreeOnWritten s t) {i : Fin 8} (taken : Bool) (hi : registerWritten s i = true) :
    AgreeOnWritten (if taken then s.setPc (s.reg i).toNat else s.advance 1)
      (if taken then t.setPc (t.reg i).toNat else t.advance 1) := by
  rw [h.regs i hi]
  cases taken
  · exact h.advance 1
  · exact h.setPc _

/-- An instruction that reads only what is written and completes from one of two agreeing states completes from the other,
and they still agree. -/
theorem AgreeOnWritten.completes (h : AgreeOnWritten s t) {s' : State} (hw : ReadsOnlyWritten s ins)
    (hc : Completes s ins s') : ∃ t', Completes t ins t' ∧ AgreeOnWritten s' t' := by
  cases hc with
  | hlt => exact ⟨_, .hlt, h.halt⟩
  | ldi ha => exact ⟨_, .ldi ha, (h.setReg _ _).advance _⟩
  | prn ha =>
    rw [h.regs _ (hw _ ha)]
    exact ⟨_, .prn ha, (h.emit _).advance _⟩
  | push ha hsp =>
    rw [h.pushed_reg_eq (hw _ ha)]
    exact ⟨_, .push ha (h.sp_eq ▸ hsp), (h.pushByte _).advance _⟩
  | pop ha hsp =>
    rw [(h.setReg _ _).sp_eq, h.mem, h.sp_eq] at hsp ⊢
    exact ⟨_, .pop ha hsp, ((h.setReg _ _).setReg _ _).advance _⟩
  | ret hsp =>
    rw [h.mem, h.sp_eq]
    exact ⟨_, .ret (h.sp_eq ▸ hsp), (h.setReg _ _).setPc _⟩
  | call ha hsp =>
    rw [h.pushed_reg_eq (hw _ ha), h.pc]
    exact ⟨_, .call ha (h.sp_eq ▸ hsp), (h.pushByte _).setPc _⟩
  | jmp ha => exact ⟨_, .jmp ha, h.jump true (hw _ ha)⟩
  | jeq ha =>
    rw [h.fl hw.2]
    exact ⟨_, .jeq ha, h.jump _ (hw.1 _ ha)⟩
  | jne ha =>
    rw [h.fl hw.2]
    exact ⟨_, .jne ha, h.jump _ (hw.1 _ ha)⟩
  | cmp ha hb =>
    rw [h.regs _ (hw.1 _ ha), h.regs _ (hw.2 _ hb)]
    exact ⟨_, .cmp ha hb, (h.setFlag _).advance _⟩
  | inc ha => exact ⟨_, .inc ha, h.unary incResult 1 (hw _ ha)⟩
  | dec ha => exact ⟨_, .dec ha, h.unary decResult 1 (hw _ ha)⟩
  | not ha => exact ⟨_, .not ha, h.unary notResult 1 (hw _ ha)⟩
  | add ha hb => exact ⟨_, .add ha hb, h.binary addResult 2 (hw.1 _ ha) (hw.2 _ hb)⟩
  | sub ha hb => exact ⟨_, .sub ha hb, h.binary subResult 2 (hw.1 _ ha) (hw.2 _ hb)⟩
  | mul ha hb => exact ⟨_, .mul ha hb, h.binary mulResult 2 (hw.1 _ ha) (hw.2 _ hb)⟩
  | and ha hb => exact ⟨_, .and ha hb, h.binary andResult 2 (hw.1 _ ha) (hw.2 _ hb)⟩
  | or ha hb => exact ⟨_, .or ha hb, h.binary orResult 2 (hw.1 _ ha) (hw.2 _ hb)⟩
  | xor ha hb => exact ⟨_, .xor ha hb, h.binary xorResult 2 (hw.1 _ ha) (hw.2 _ hb)⟩
  | shl ha hb => exact ⟨_, .shl ha hb, h.binary shlResult 2 (hw.1 _ ha) (hw.2 _ hb)⟩
  | shr ha hb => exact ⟨_, .shr ha hb, h.binary shrResult 2 (hw.1 _ ha) (hw.2 _ hb)⟩
  | div ha hb h0 =>
    exact ⟨_, .div ha hb (h.regs _ (hw.2 _ hb) ▸ h0), h.binary divResult 2 (hw.1 _ ha) (hw.2 _ hb)⟩
  | mod ha hb h0 =>
    exact ⟨_, .mod ha hb (h.regs _ (hw.2 _ hb) ▸ h0), h.binary modResult 2 (hw.1 _ ha) (hw.2 _ hb)⟩

/-- The outcomes of two checked steps that cannot be told apart: next states that agree, or the same stop. -/
def OutcomesAgree (x y : Host.Outcome State Fault Refusal) : Prop :=
  (∀ s', x = .next s' → ∃ t', y = .next t' ∧ AgreeOnWritten s' t') ∧ ∀ f, x = .fault f → y = .fault f

theorem outcomesAgree_next {s' t' : State} (h : AgreeOnWritten s' t') : OutcomesAgree (.next s') (.next t') :=
  ⟨fun _ hs => ⟨t', rfl, Host.Outcome.next.inj hs ▸ h⟩, nofun⟩

theorem outcomesAgree_fault (f : Fault) : OutcomesAgree (.fault f) (.fault f) :=
  ⟨nofun, fun _ hf => hf⟩

theorem AgreeOnWritten.outcomesAgree_exec (h : AgreeOnWritten s t) (hw : ReadsOnlyWritten s ins) :
    OutcomesAgree (exec ins s) (exec ins t) := by
  rcases completes_or_raises s ins with ⟨s', hc⟩ | ⟨k, hr⟩
  · obtain ⟨t', hc', hagree⟩ := h.completes hw hc
    rw [exec_of_completes hc, exec_of_completes hc']
    exact outcomesAgree_next hagree
  · rw [exec_of_raises hr, exec_of_raises (h.raises hw hr)]
    exact outcomesAgree_next (h.enterFault k)

theorem AgreeOnWritten.outcomesAgree_execChecked (h : AgreeOnWritten s t) (ins : Instr) :
    OutcomesAgree (execChecked ins s) (execChecked ins t) := by
  simp only [execChecked, ← h.writtenCheck_eq ins]
  cases hcheck : writtenCheck ins s with
  | error k => exact outcomesAgree_next (h.enterFault k)
  | ok u => exact h.outcomesAgree_exec (readsOnlyWritten_of_writtenCheck hcheck)

/-- The fetch and the decode read pc and memory alone. -/
theorem AgreeOnWritten.fetchDecodeWith_eq (h : AgreeOnWritten s t) (map : OpcodeMap) :
    fetchDecodeWith map s = fetchDecodeWith map t := by
  simp only [fetchDecodeWith, fetch, memRead, h.mem, h.pc]

theorem AgreeOnWritten.outcomesAgree_stepCheckedWith (h : AgreeOnWritten s t) (map : OpcodeMap) :
    OutcomesAgree (stepCheckedWith map s) (stepCheckedWith map t) := by
  simp only [stepCheckedWith, ← h.run, ← h.fetchDecodeWith_eq map]
  cases s.run with
  | halted => exact outcomesAgree_fault _
  | faulted => exact outcomesAgree_fault _
  | running =>
    cases fetchDecodeWith map s with
    | error k => exact outcomesAgree_next (h.enterFault k)
    | ok ins => exact h.outcomesAgree_execChecked ins

/-- Settles O51: agreeing states fetch the same, pass the same written check, and then read only where they agree. -/
theorem unwrittenValuesCannotMatter : Obligations.UnwrittenValuesCannotMatter := by
  unfold Obligations.UnwrittenValuesCannotMatter
  exact fun map s t h => h.outcomesAgree_stepCheckedWith map

end Sys2Proof.Machine
end

section
/-! The memory family: the one byte a cycle can store, and that the next fetch sees it. -/

namespace Sys2Proof.Machine

variable {s t : State} {ins : Instr}

/-! ### The store of a push (R63) -/

@[simp] theorem State.pushByte_mem (v : Byte) : (s.pushByte v).mem = s.mem.write (s.sp.toNat - 1) v := by
  rw [State.pushByte, State.setMem_mem, State.pushed, sp_decremented]

/-- The address whose byte a store changes is the one stored to. -/
theorem Memory.eq_of_read_write_ne {m : Memory} {a b : Nat} {v : Byte} (h : (m.write a v).read b ≠ m.read b) : b = a :=
  by_contra fun hne => h (m.read_write_ne a v hne)

/-- An instruction that completes leaves memory as it was, or is a PUSH or CALL that stores one byte just below SP. -/
theorem Completes.mem_cases (h : Completes s ins t) :
    t.mem = s.mem ∨ (ins.mnemonic = .push ∨ ins.mnemonic = .call) ∧
      ∃ adr v, adr + 1 = s.sp.toNat ∧ t.mem = s.mem.write adr v := by
  have hpred (hsp : s.sp ≠ 0) : s.sp.toNat - 1 + 1 = s.sp.toNat := by bv_omega
  cases h with
  | push _ hsp => exact .inr ⟨.inl rfl, _, _, hpred hsp, State.pushByte_mem _⟩
  | call _ hsp => exact .inr ⟨.inr rfl, _, _, hpred hsp, State.pushByte_mem _⟩
  | jeq | jne => split <;> exact .inl rfl
  | hlt | ldi | prn | pop | ret | jmp | add | sub | mul | div | mod | inc | dec | cmp | and | not | or | xor | shl
  | shr => exact .inl rfl

/-- Settles O45: a fault entry stores nothing, and a completed instruction stores as `Completes.mem_cases` says. -/
theorem memoryChangesOnlyByStackStore : Obligations.MemoryChangesOnlyByStackStore := by
  unfold Obligations.MemoryChangesOnlyByStackStore
  intro map hadm s t adr h hne
  obtain ⟨-, ⟨k, -, rfl⟩ | ⟨ins, -, -, hop, hc | ⟨k, -, rfl⟩⟩⟩ := stepWith_cases h
  · exact absurd rfl hne
  · obtain hsame | ⟨hm, adr', v, hsp, hmem⟩ := hc.mem_cases
    · exact absurd (congrArg (·.read adr) hsame) hne
    · obtain rfl : adr = adr' := Memory.eq_of_read_write_ne (hmem ▸ hne)
      rw [eq_map_of_decodeOpcodeWith hadm hop]
      exact ⟨hm.imp (congrArg map) (congrArg map), hsp⟩
  · exact absurd rfl hne

/-! ### A store into code (R61, R235) -/

/-- A push of a register other than R7 reads the value the register had before SP moved. -/
theorem State.pushed_reg_of_ne {i : Fin 8} (hi : i ≠ spIndex) : s.pushed.reg i = s.reg i := s.reg_setReg_ne _ _ hi

/-- A fetch that completes gives the byte at pc as its opcode (R101). -/
theorem exists_fetch_of_read {op : Byte} (hpc : s.pc ≤ 253) (h : s.mem.read s.pc = op) :
    ∃ x y, fetch s = .ok (op, x, y) :=
  ⟨_, _, h ▸ fetch_of_le hpc⟩

/-- Settles O39: the PUSH completes, the next fetch begins at the address it stored to, and a read there gives the byte. -/
theorem codeStoreSeenByNextFetch : Obligations.CodeStoreSeenByNextFetch := by
  unfold Obligations.CodeStoreSeenByNextFetch
  intro map s a i rest hrun hwf hpc hd ha hi hsp
  have hsp0 : s.sp ≠ 0 := by bv_omega
  have hstep : stepWith map s = .next ((s.pushByte (s.reg i)).advance 1) := by
    rw [stepWith_of_ok hrun (fetchDecodeWith_of_decode (by omega) hd), exec_of_completes (.push ha hsp0),
      State.pushed_reg_of_ne hi]
  have hread : ((s.pushByte (s.reg i)).advance 1).mem.read (s.pc + 2) = s.reg i := by
    rw [State.advance_mem, State.pushByte_mem, hsp]
    exact Memory.read_write_self _ _ hwf
  obtain ⟨x, y, hfetch⟩ := exists_fetch_of_read (show s.pc + 2 ≤ 253 by omega) hread
  exact ⟨_, x, y, hstep, rfl, hfetch⟩

end Sys2Proof.Machine
end

section
/-! The encoding family: the opcode map, the decoder against the encoder, and pc after an instruction. -/

namespace Sys2Proof

variable {map : OpcodeMap} {op : Byte} {m : Mnemonic} {i : Instr} {bytes rest : List Byte}

/-! ### Opcode bytes (R74, R76) -/

/-- Under an admissible map the decoder's lookup by family and identifier finds the mnemonic and no other. -/
theorem decodeOpcodeWith_map (hadm : map.Admissible) (m : Mnemonic) : decodeOpcodeWith map (map m) = .ok m := by
  obtain ⟨hrow, hinj⟩ := hadm
  obtain ⟨hfam, hcount⟩ := hrow m
  have hfind : Mnemonic.all.find? (fun m' => m'.family == m.family && opcodeId (map m') == opcodeId (map m)) = some m := by
    cases h : Mnemonic.all.find? fun m' => m'.family == m.family && opcodeId (map m') == opcodeId (map m) with
    | none => simpa using List.find?_eq_none.1 h m m.mem_all
    | some m' =>
      have hm' : m'.family = m.family ∧ opcodeId (map m') = opcodeId (map m) := by simpa using List.find?_some h
      rw [hinj m' m hm'.1 hm'.2]
  simp [decodeOpcodeWith, hfam, hfind, hcount]

theorem decodeOpcodeWith_eq_ok_iff (hadm : map.Admissible) : decodeOpcodeWith map op = .ok m ↔ op = map m :=
  ⟨Machine.eq_map_of_decodeOpcodeWith hadm, fun h => h ▸ decodeOpcodeWith_map hadm m⟩

/-! ### Decoding against encoding (R70, R72, R76 to R79) -/

@[simp] theorem Mnemonic.mnemonic_instr (m : Mnemonic) (a b : Byte) : (m.instr a b).mnemonic = m := by cases m <;> rfl

@[simp] theorem Mnemonic.operandBytes_instr (m : Mnemonic) (a b : Byte) :
    (m.instr a b).operandBytes = [a, b].take m.operandCount := by cases m <;> rfl

/-- Bytes decode to an instruction exactly when an opcode byte of its mnemonic and its operand bytes stand before the rest,
under any map. -/
theorem decodeWith_eq_ok_iff :
    decodeWith map bytes = .ok (i, rest) ↔
      ∃ op, decodeOpcodeWith map op = .ok i.mnemonic ∧ bytes = op :: i.operandBytes ++ rest := by
  constructor
  · intro h
    unfold decodeWith at h
    split at h
    · cases h
    · next op tail =>
      split at h
      · cases h
      · next m hop =>
        -- One case per format: the operand bytes are as many of the bytes after the opcode as it has.
        split at h <;> cases h <;> exact ⟨op, by simp [Mnemonic.operandCount, Format.operandCount, *]⟩
  · rintro ⟨op, hop, rfl⟩
    simp only [List.cons_append, decodeWith, hop]
    cases i <;> rfl

/-- Settles O9: the map's byte decodes to the mnemonic, and the operand bytes stand behind it. -/
theorem decodeOfEncode : Obligations.DecodeOfEncode := by
  unfold Obligations.DecodeOfEncode
  exact fun map hadm i rest => decodeWith_eq_ok_iff.2 ⟨_, decodeOpcodeWith_map hadm i.mnemonic, rfl⟩

/-- Settles O10: the opcode byte before the operand bytes is the map's, the only one that decodes to the mnemonic. -/
theorem encodeOfDecode : Obligations.EncodeOfDecode := by
  unfold Obligations.EncodeOfDecode
  intro map hadm bytes i rest h
  obtain ⟨op, hop, rfl⟩ := decodeWith_eq_ok_iff.1 h
  rw [(decodeOpcodeWith_eq_ok_iff hadm).1 hop]
  rfl

/-! ### The default opcode map (R80) -/

theorem opcodeMap_row (m : Mnemonic) :
    opcodeFamily (opcodeMap m) = some m.family ∧ opcodeCount (opcodeMap m) = m.operandCount := by
  cases m <;> decide

/-- No two of the 24 rows have the same family and identifier (R74). -/
theorem nodup_family_opcodeId : (Mnemonic.all.map fun m => (m.family, opcodeId (opcodeMap m))).Nodup := by decide

theorem opcodeMap_admissible : opcodeMap.Admissible :=
  ⟨opcodeMap_row, fun m m' hfam hid =>
    List.inj_on_of_nodup_map nodup_family_opcodeId m.mem_all m'.mem_all (Prod.ext hfam hid)⟩

/-- Settles O8: `opcodeMap_admissible`, and the map's bytes read off its definition. -/
theorem defaultOpcodeMapAdmissible : Obligations.DefaultOpcodeMapAdmissible := by
  unfold Obligations.DefaultOpcodeMapAdmissible
  exact ⟨opcodeMap_admissible, rfl⟩

theorem decode_encode (i : Instr) : decode (encode i) = .ok (i, []) := by
  simpa [decode, encode] using decodeOfEncode opcodeMap opcodeMap_admissible i []

/-- Settles O7: each word is the encoding of its instruction. -/
theorem opcodeWordsDecode : Obligations.OpcodeWordsDecode := by
  unfold Obligations.OpcodeWordsDecode
  exact ⟨decode_encode .hlt, decode_encode (.ldi 3 255), decode_encode (.push 6), decode_encode (.jeq 1),
    decode_encode (.not 4), decode_encode (.shr 2 5)⟩

/-! ### pc after an instruction outside the control-flow family (R72, R73, R104) -/

theorem opcodeCount_eq_div (op : Byte) : opcodeCount op = op.toNat / 64 := by
  have hlt : op.toNat < 256 := op.isLt
  simp only [opcodeCount, BitVec.extractLsb'_toNat, Nat.shiftRight_eq_div_pow]
  omega

theorem opcodeFamily_ne_ctrl (h : op.getLsbD 4 = false) : opcodeFamily op ≠ some .ctrl := by
  unfold opcodeFamily opcodeIsControl
  rw [h]
  cases opcodeIsAlu op <;> simp

end Sys2Proof

namespace Sys2Proof.Machine

variable {s t : State} {ins : Instr}

/-- Outside the control-flow family every instruction but HLT, which leaves RUNNING, advances past its operand bytes. -/
theorem Completes.pc_eq (h : Completes s ins t) (hrun : t.run = .running) (hfam : ins.mnemonic.family ≠ .ctrl) :
    t.pc = s.pc + ins.mnemonic.operandCount + 1 := by
  cases h with
  | hlt => cases hrun
  | ret | call | jmp | jeq | jne => exact absurd rfl hfam
  | ldi | prn | push | pop | add | sub | mul | div | mod | inc | dec | cmp | and | not | or | xor | shl | shr => rfl

/-- Settles O47: a fault entry is not RUNNING; a completed instruction has its opcode's family and operand count. -/
theorem pcAdvancesByOperandCount : Obligations.PcAdvancesByOperandCount := by
  unfold Obligations.PcAdvancesByOperandCount
  intro map s t h hrun hbit
  obtain ⟨-, ⟨k, -, rfl⟩ | ⟨ins, -, -, hop, hc | ⟨k, -, rfl⟩⟩⟩ := stepWith_cases h
  · cases hrun
  · obtain ⟨hfam, -, hcount⟩ := decodeOpcodeWith_ok hop
    have hctrl : ins.mnemonic.family ≠ .ctrl := fun hctrl => opcodeFamily_ne_ctrl hbit (hfam.trans (congrArg some hctrl))
    rw [hc.pc_eq hrun hctrl, hcount, opcodeCount_eq_div]
  · cases hrun

end Sys2Proof.Machine
end

section
/-! The execution family: the fetch, the dispatch of what it decodes, and the states without a cycle. -/

namespace Sys2Proof.Machine

variable {map : OpcodeMap} {s : State} {ins : Instr}

/-! ### The fetch (R101, R207) -/

theorem State.opcodeAtPc_of_gt (h : 255 < s.pc) : s.opcodeAtPc = none := if_pos h

theorem State.opcodeAtPc_of_le (h : s.pc ≤ 255) : s.opcodeAtPc = some (s.mem.read s.pc) := if_neg (Nat.not_lt.2 h)

/-- Settles O12: a fetch above pc 253 raises before any decode, and the record holds the opcode byte wherever pc has one. -/
theorem fetchBoundsAndBytes : Obligations.FetchBoundsAndBytes := by
  unfold Obligations.FetchBoundsAndBytes
  intro map s hrun
  have hfault (h : 253 < s.pc) :
      stepWith map s = .next { s with run := .faulted, fault := some ⟨.outOfBounds, s.pc, s.opcodeAtPc⟩ } :=
    stepWith_of_error hrun (fetchDecodeWith_of_gt h)
  refine ⟨fun h => ?_, fun h => ?_, fetch_of_le⟩
  · rw [hfault (by omega), State.opcodeAtPc_of_gt h]
  · rw [hfault (by omega), State.opcodeAtPc_of_le (by omega)]

/-! ### The dispatch (R103, R110) -/

/-- Settles O11: the fetch gives the decoded instruction, and the step of a RUNNING state is then its `exec`. -/
theorem stepRunsDecodedInstruction : Obligations.StepRunsDecodedInstruction := by
  unfold Obligations.StepRunsDecodedInstruction
  exact fun map s i rest hrun hpc hd => stepWith_of_ok hrun (fetchDecodeWith_of_decode hpc hd)

/-- Settles O40: the bytes at pc decode to a JMP, which sets pc to the value it has. -/
theorem jumpToSelfLoops : Obligations.JumpToSelfLoops := by
  unfold Obligations.JumpToSelfLoops
  intro map hadm s i hrun hpc hop ha htarget
  have hd : decodeWith map [s.mem.read s.pc, s.mem.read (s.pc + 1), s.mem.read (s.pc + 2)] =
      .ok (.jmp (s.mem.read (s.pc + 1)), [s.mem.read (s.pc + 2)]) :=
    decodeWith_eq_ok_iff.2 ⟨s.mem.read s.pc, (decodeOpcodeWith_eq_ok_iff hadm).2 hop, rfl⟩
  calc stepWith map s
      _ = exec (.jmp (s.mem.read (s.pc + 1))) s := stepRunsDecodedInstruction map s _ _ hrun hpc hd
      _ = .next (s.setPc (s.reg i).toNat) := exec_of_completes (.jmp ha)
      _ = .next s := by rw [htarget]; rfl

/-! ### The terminal states (R111) -/

theorem stepWith_of_halted (h : s.run = .halted) : stepWith map s = .fault .noStepHalted := by simp [stepWith, h]

theorem stepWith_of_faulted (h : s.run = .faulted) : stepWith map s = .fault .noStepFaulted := by simp [stepWith, h]

/-- Settles O14: the step looks at the run state before it fetches. -/
theorem haltedAndFaultedHaveNoStep : Obligations.HaltedAndFaultedHaveNoStep := by
  unfold Obligations.HaltedAndFaultedHaveNoStep
  exact fun map s => ⟨stepWith_of_halted, stepWith_of_faulted⟩

/-! ### The checked dispatch (R106, R107, R110)

Where everything an instruction reads is written, its written check raises nothing but the `OutOfBounds` that the
instruction itself raises. -/

theorem stepCheckedWith_of_ok (hr : s.run = .running) (h : fetchDecodeWith map s = .ok ins) :
    stepCheckedWith map s = execChecked ins s := by
  simp [stepCheckedWith, hr, h]

/-- The operands that are checked are the register operands. -/
theorem map_snd_operandChecks (ins : Instr) : (operandChecks ins).map Prod.snd = ins.registerOperands := by
  cases ins <;> rfl

theorem wellFormed_eq_false_of_operandCheck {c : OperandRole × Byte} (hc : c ∈ operandChecks ins) (h : 7 < c.2.toNat) :
    ins.wellFormed = false :=
  wellFormed_eq_false_of_operand (map_snd_operandChecks ins ▸ List.mem_map_of_mem hc) h

theorem ReadsOnlyWritten.operandWritten (h : ReadsOnlyWritten s ins) {r : Byte} (hr : (.src, r) ∈ operandChecks ins) :
    OperandWritten s r := by
  cases ins with
  | hlt | ret | ldi | pop => simp [operandChecks] at hr
  | prn | push | call | jmp | inc | dec | not =>
    obtain rfl : r = _ := by simpa [operandChecks] using hr
    exact h
  | jeq | jne =>
    obtain rfl : r = _ := by simpa [operandChecks] using hr
    exact h.1
  | add | sub | mul | div | mod | cmp | and | or | xor | shl | shr =>
    obtain rfl | rfl : r = _ ∨ r = _ := by simpa [operandChecks] using hr
    · exact h.1
    · exact h.2

theorem ReadsOnlyWritten.flWritten (h : ReadsOnlyWritten s ins) (hfl : readsFlags ins = true) : s.flWritten = true := by
  cases ins with
  | jeq | jne => exact h.2
  | hlt | ret | ldi | pop | prn | push | call | jmp | inc | dec | not | add | sub | mul | div | mod | cmp | and | or | xor
  | shl | shr => cases hfl

/-- The check of an operand that is written if it is read raises only by its index (R24). -/
theorem checkOperand_cases {c : OperandRole × Byte} (h : c.1 = .src → OperandWritten s c.2) :
    checkOperand s c = .ok () ∨ 7 < c.2.toNat ∧ checkOperand s c = .error .outOfBounds := by
  obtain ⟨role, r⟩ := c
  rcases register_or_gt r with ⟨i, hi⟩ | hgt
  · left
    cases role with
    | src => simp [checkOperand, checkSrc_of_eq hi, h rfl i hi, bind, Except.bind]
    | dst => simp [checkOperand, checkDst_of_eq hi, bind, Except.bind]
  · have herr : checkOperand s (role, r) = .error .outOfBounds := by
      cases role <;> simp [checkOperand, checkSrc_of_gt hgt, checkDst_of_gt hgt, bind, Except.bind]
    exact .inr ⟨hgt, herr⟩

theorem checkOperands_cases {cs : List (OperandRole × Byte)} (h : ∀ c ∈ cs, c.1 = .src → OperandWritten s c.2) :
    checkOperands s cs = .ok () ∨ (∃ c ∈ cs, 7 < c.2.toNat) ∧ checkOperands s cs = .error .outOfBounds := by
  induction cs with
  | nil => exact .inl rfl
  | cons c cs ih =>
    obtain ⟨hc, hcs⟩ := List.forall_mem_cons.1 h
    rcases checkOperand_cases hc with hok | ⟨hgt, herr⟩
    · have hcons : checkOperands s (c :: cs) = checkOperands s cs := by rw [checkOperands, hok]; rfl
      rw [hcons]
      exact (ih hcs).imp_right fun ⟨⟨d, hd, hgt⟩, herr⟩ => ⟨⟨d, .tail c hd, hgt⟩, herr⟩
    · exact .inr ⟨⟨c, .head cs, hgt⟩, by rw [checkOperands, herr]; rfl⟩

theorem ReadsOnlyWritten.writtenCheck_cases (h : ReadsOnlyWritten s ins) :
    writtenCheck ins s = .ok () ∨ ins.wellFormed = false ∧ writtenCheck ins s = .error .outOfBounds := by
  have hsrc : ∀ c ∈ operandChecks ins, c.1 = .src → OperandWritten s c.2 := by
    rintro ⟨-, r⟩ hc rfl
    exact h.operandWritten hc
  rcases checkOperands_cases hsrc with hok | ⟨⟨c, hc, hgt⟩, herr⟩
  · have hfl : (readsFlags ins && !s.flWritten) = false := by simpa using h.flWritten
    exact .inl (by simp [writtenCheck, hok, hfl, bind, Except.bind])
  · exact .inr ⟨wellFormed_eq_false_of_operandCheck hc hgt, by rw [writtenCheck, herr]; rfl⟩

theorem ReadsOnlyWritten.execChecked_eq (h : ReadsOnlyWritten s ins) : execChecked ins s = exec ins s := by
  rcases h.writtenCheck_cases with hok | ⟨hwf, herr⟩
  · rw [execChecked, hok]
  · rw [execChecked, herr, exec_of_not_wellFormed hwf]

/-- Settles O49: the fetch gives the decoded instruction, and `ReadsOnlyWritten.execChecked_eq` says what its check adds. -/
theorem checkedStepRunsDecodedInstruction : Obligations.CheckedStepRunsDecodedInstruction := by
  unfold Obligations.CheckedStepRunsDecodedInstruction
  exact ⟨fun map s i rest hrun hpc hd => stepCheckedWith_of_ok hrun (fetchDecodeWith_of_decode hpc hd),
    fun s i h => h.execChecked_eq⟩

end Sys2Proof.Machine
end

section
/-! The control-flow family: the jumps, CALL and RET, and that a RET goes on after its CALL. -/

namespace Sys2Proof.Machine

variable {s : State}

/-! ### The jumps (R121 to R123) -/

theorem onlyRegisters_setPc (s : State) (p : Nat) : OnlyRegisters [] s (s.setPc p) where
  memory _ := rfl
  registers _ _ := ⟨rfl, rfl⟩
  flags := ⟨rfl, rfl⟩
  output := rfl
  runState := ⟨rfl, rfl⟩

/-- Settles O31: the completed JMP is the state with pc set. -/
theorem jmpJumps : Obligations.JmpJumps := by
  unfold Obligations.JmpJumps
  exact fun s a i ha => ⟨_, exec_of_completes (.jmp ha), rfl, onlyRegisters_setPc s _⟩

theorem Flag.equal_iff {f : Flag} : f.equal = true ↔ f = .E := beq_iff_eq

/-- A conditional jump sets pc alone, to the target or past its own two bytes. -/
theorem ite_setPc_advance (s : State) (taken : Prop) [Decidable taken] (p : Nat) :
    (if taken then s.setPc p else s.advance 1) = s.setPc (if taken then p else s.pc + 2) :=
  (apply_ite s.setPc taken p (s.pc + 2)).symm

/-- Settles O32: both complete with pc alone set, JNE's condition being the negation of JEQ's. -/
theorem conditionalJumps : Obligations.ConditionalJumps := by
  unfold Obligations.ConditionalJumps
  intro s a i ha
  have hjeq : exec (.jeq a) s = .next (s.setPc (if s.fl = .E then (s.reg i).toNat else s.pc + 2)) := by
    rw [exec_of_completes (.jeq ha), ite_setPc_advance]
    simp only [Flag.equal_iff]
  have hjne : exec (.jne a) s = .next (s.setPc (if s.fl = .E then s.pc + 2 else (s.reg i).toNat)) := by
    rw [exec_of_completes (.jne ha), ite_setPc_advance]
    simp only [Bool.not_eq_true', ← Bool.not_eq_true, Flag.equal_iff, ite_not]
  exact ⟨⟨_, hjeq, rfl, onlyRegisters_setPc s _⟩, ⟨_, hjne, rfl, onlyRegisters_setPc s _⟩⟩

/-! ### CALL (R124, R126) -/

theorem keepsRegistersBut_setReg (s : State) (i : Fin 8) (v : Nat) : KeepsRegistersBut [i] s (s.setReg i v) := by
  obtain ⟨-, -, hkeeps⟩ := registerWriteWraps s i v
  exact hkeeps

/-- After a push a register reads as before, but R7 reads as the decremented SP. -/
theorem State.pushed_reg_toNat (s : State) (i : Fin 8) :
    (s.pushed.reg i).toNat = if i = spIndex then s.sp.toNat - 1 else (s.reg i).toNat := by
  split
  · next hi => exact hi ▸ sp_decremented s
  · next hi => rw [State.pushed_reg_of_ne hi]

/-- The pushed byte lies at the new SP. -/
theorem State.read_pushByte (v : Byte) (hm : s.mem.wf = true) : (s.pushByte v).mem.read (s.sp.toNat - 1) = v := by
  rw [State.pushByte_mem]
  exact Memory.read_write_self _ v hm

theorem onlyStackStore_pushByte_setPc (s : State) (v : Byte) (p : Nat) :
    OnlyStackStore (s.sp.toNat - 1) s ((s.pushByte v).setPc p) where
  memory adr hadr := by rw [State.setPc_mem, State.pushByte_mem, Memory.read_write_ne _ _ _ hadr]
  registers := keepsRegistersBut_setReg s spIndex _
  flags := ⟨rfl, rfl⟩
  output := rfl
  runState := ⟨rfl, rfl⟩

/-- Settles O33: the completed CALL is a push of p + 2, which fits a byte, with pc set to the register after the push. -/
theorem callPushesReturnAddress : Obligations.CallPushesReturnAddress := by
  unfold Obligations.CallPushesReturnAddress
  intro s a i ha hsp hm hpc
  have hfits : (BitVec.ofNat 8 (s.pc + 2)).toNat = s.pc + 2 := by bv_omega
  refine ⟨_, exec_of_completes (.call ha hsp), sp_decremented s, ?_, s.pushed_reg_toNat i,
    onlyStackStore_pushByte_setPc s _ _⟩
  rw [State.setPc_mem, State.read_pushByte _ hm, hfits]

/-! ### RET (R125) -/

/-- After the increment SP is one higher, without wrap below 255. -/
theorem sp_incremented (h : s.sp ≠ 255) : (s.setReg spIndex (s.sp.toNat + 1)).sp.toNat = s.sp.toNat + 1 := by
  rw [State.sp_setReg_spIndex]
  bv_omega

theorem onlyRegisters_setReg_setPc (s : State) (i : Fin 8) (v p : Nat) :
    OnlyRegisters [i] s ((s.setReg i v).setPc p) where
  memory _ := rfl
  registers := keepsRegistersBut_setReg s i v
  flags := ⟨rfl, rfl⟩
  output := rfl
  runState := ⟨rfl, rfl⟩

/-- Settles O34: the completed RET increments SP and sets pc to the byte SP named. -/
theorem retPopsPc : Obligations.RetPopsPc := by
  unfold Obligations.RetPopsPc
  exact fun s hsp => ⟨_, exec_of_completes (.ret hsp), rfl, sp_incremented hsp, onlyRegisters_setReg_setPc s spIndex _ _⟩

/-- Settles O38: the RET reads the byte that the CALL pushed, p + 2, and its increment undoes the CALL's decrement. -/
theorem callThenRetReturns : Obligations.CallThenRetReturns := by
  unfold Obligations.CallThenRetReturns
  intro s t u a i ha hm hsp hpc hcall husp hbyte
  obtain ⟨t', hcall', htsp, htbyte, -, -⟩ := callPushesReturnAddress s a i ha hsp hm hpc
  obtain rfl : t = t' := by simpa [hcall] using hcall'
  have husp255 : u.sp ≠ 255 := by bv_omega
  obtain ⟨v, hret, hvpc, hvsp, -⟩ := retPopsPc u husp255
  have hpcv : v.pc = s.pc + 2 := by rw [hvpc, hbyte, htsp, htbyte]
  have hspv : v.sp = s.sp := by bv_omega
  exact ⟨v, hret, hpcv, hspv⟩

end Sys2Proof.Machine
end

section
/-! The data-movement family: LDI, PRN, PUSH and POP, and that a POP restores what a PUSH of the same register stored. -/

namespace Sys2Proof.Machine

variable {s t : State} {changed : List (Fin 8)} {i : Fin 8}

/-! ### The frame of register writes -/

theorem onlyRegisters_refl (changed : List (Fin 8)) (s : State) : OnlyRegisters changed s s where
  memory _ := rfl
  registers _ _ := ⟨rfl, rfl⟩
  flags := ⟨rfl, rfl⟩
  output := rfl
  runState := ⟨rfl, rfl⟩

theorem KeepsRegistersBut.setReg (h : KeepsRegistersBut changed s t) (hi : i ∈ changed) (v : Nat) :
    KeepsRegistersBut changed s (t.setReg i v) := by
  intro r hr
  have hne : r ≠ i := fun hri => hr (hri ▸ hi)
  obtain ⟨hreg, hwritten⟩ := h r hr
  obtain ⟨hreg', hwritten'⟩ := keepsRegistersBut_setReg t i v r (by simpa using hne)
  exact ⟨hreg'.trans hreg, hwritten'.trans hwritten⟩

/-- Writing a listed register stays within the frame. -/
theorem OnlyRegisters.setReg (h : OnlyRegisters changed s t) (hi : i ∈ changed) (v : Nat) :
    OnlyRegisters changed s (t.setReg i v) :=
  { h with registers := h.registers.setReg hi v }

/-- Moving pc stays within the frame. -/
theorem OnlyRegisters.advance (h : OnlyRegisters changed s t) (n : Nat) : OnlyRegisters changed s (t.advance n) :=
  { h with }

/-! ### LDI and PRN (R141, R142) -/

/-- A byte written to a register reads back unchanged. -/
theorem State.reg_setReg_toNat (s : State) (i : Fin 8) (v : Byte) : (s.setReg i v.toNat).reg i = v := by
  rw [State.reg_setReg_self, BitVec.ofNat_toNat, BitVec.setWidth_eq]

theorem registerWritten_setReg_self (s : State) (i : Fin 8) (v : Nat) : registerWritten (s.setReg i v) i = true := by
  simp [registerWritten_setReg]

/-- Settles O26: the completed LDI is one register write of the immediate, and pc past its three bytes. -/
theorem ldiLoadsImmediate : Obligations.LdiLoadsImmediate := by
  unfold Obligations.LdiLoadsImmediate
  intro s a imm i ha
  exact ⟨_, exec_of_completes (.ldi ha),
    { value := congrArg BitVec.toNat (s.reg_setReg_toNat i imm)
      marked := registerWritten_setReg_self s i imm.toNat
      pc := rfl
      frame := onlyRegisters_setReg_setPc s i _ _ }⟩

/-- Settles O27: the completed PRN is the state with the register's value emitted and pc past its two bytes. -/
theorem prnEmitsRegister : Obligations.PrnEmitsRegister := by
  unfold Obligations.PrnEmitsRegister
  intro s a i ha
  exact ⟨_, exec_of_completes (.prn ha), rfl, rfl, fun _ => rfl, fun _ _ => ⟨rfl, rfl⟩, ⟨rfl, rfl⟩, ⟨rfl, rfl⟩⟩

/-! ### PUSH (R143) -/

/-- Settles O28: the completed PUSH is a push of the register as it reads after the decrement. -/
theorem pushStoresAtNewSp : Obligations.PushStoresAtNewSp := by
  unfold Obligations.PushStoresAtNewSp
  intro s a i ha hsp hm
  exact ⟨_, exec_of_completes (.push ha hsp), sp_decremented s, s.read_pushByte _ hm, rfl,
    onlyStackStore_pushByte_setPc s _ _⟩

/-! ### POP (R144) -/

/-- Settles O29: POP writes the popped byte, then increments SP as it reads after that write. For another register this SP
is the old one; for R7 it is the popped byte. -/
theorem popLoadsFromSp : Obligations.PopLoadsFromSp := by
  unfold Obligations.PopLoadsFromSp
  intro s a i ha
  refine ⟨fun hi hsp => ?_, ?_⟩
  · have hkeep : (s.setReg i (s.mem.read s.sp.toNat).toNat).sp = s.sp := s.sp_setReg_ne i _ hi
    have hsp' := hkeep ▸ hsp
    refine ⟨_, exec_of_completes (.pop ha hsp'), ?_, ?_, ?_, rfl, ?_⟩
    · rw [State.advance_reg, State.reg_setReg_ne _ _ _ hi, State.reg_setReg_toNat]
    · rw [registerWritten_advance, registerWritten_setReg, registerWritten_setReg_self, Bool.true_or]
    · rw [State.advance_sp, sp_incremented hsp', hkeep]
    · exact (((onlyRegisters_refl _ s).setReg (by simp) _).setReg (by simp) _).advance 1
  · rintro rfl hbyte
    have hpopped : (s.setReg spIndex (s.mem.read s.sp.toNat).toNat).sp = s.mem.read s.sp.toNat :=
      s.reg_setReg_toNat spIndex _
    have hsp' := hpopped ▸ hbyte
    refine ⟨_, exec_of_completes (.pop ha hsp'), ?_, rfl, ?_⟩
    · rw [State.advance_sp, sp_incremented hsp', hpopped]
    · exact (((onlyRegisters_refl _ s).setReg (by simp) _).setReg (by simp) _).advance 1

/-- Settles O37: the POP reads the byte that the PUSH stored, which is the register's since a push moves R7 alone, and its
increment undoes the PUSH's decrement. -/
theorem pushThenPopRestores : Obligations.PushThenPopRestores := by
  unfold Obligations.PushThenPopRestores
  intro s t u a i ha hi hm hsp hpush husp hbyte
  obtain ⟨t', hpush', htsp, htbyte, -, hframe⟩ := pushStoresAtNewSp s a i ha hsp hm
  obtain rfl : t = t' := by simpa [hpush] using hpush'
  obtain ⟨htreg, -⟩ := hframe.registers i (by simpa using hi)
  have hsp0 : s.sp.toNat ≠ 0 := fun h => hsp (BitVec.eq_of_toNat_eq h)
  have hpred : u.sp.toNat + 1 = s.sp.toNat := by
    rw [husp, htsp]
    omega
  have husp255 : u.sp ≠ 255 := by bv_omega
  obtain ⟨hpop, -⟩ := popLoadsFromSp u a i ha
  obtain ⟨v, hv, hvreg, -, hvsp, -⟩ := hpop hi husp255
  have hregv : v.reg i = s.reg i := by rw [hvreg, hbyte, htsp, htbyte, htreg]
  have hspv : v.sp = s.sp := BitVec.eq_of_toNat_eq (hvsp.trans hpred)
  exact ⟨v, hv, hregv, hspv⟩

end Sys2Proof.Machine
end

section
/-! The ALU family: the value each operation stores, after the register write's wrap, and the flag CMP sets. -/

namespace Sys2Proof.Machine

variable {s : State} {i : Fin 8}

/-- The completed state of every operation that stores a result: the register holds it modulo 256 (R161). -/
theorem registerResult_setReg_advance {v w n : Nat} (hv : v % 256 = w) :
    RegisterResult i w (n + 1) s ((s.setReg i v).advance n) where
  value := by rw [State.advance_reg, State.reg_setReg_self, BitVec.toNat_ofNat, hv]
  marked := registerWritten_setReg_self s i v
  pc := rfl
  frame := onlyRegisters_setReg_setPc s i v _

/-! ### ADD, SUB and MUL (R162 to R164) -/

theorem subResult_mod (x y : Byte) :
    subResult x y % 256 = if x.toNat < y.toNat then x.toNat + 256 - y.toNat else x.toNat - y.toNat := by
  unfold subResult
  split <;> omega

/-- Settles O19: each completes with one register write, of a result that wraps there. -/
theorem addSubMulResults : Obligations.AddSubMulResults := by
  unfold Obligations.AddSubMulResults
  intro s a b i j ha hb
  exact ⟨⟨_, exec_of_completes (.add ha hb), registerResult_setReg_advance rfl⟩,
    ⟨_, exec_of_completes (.sub ha hb), registerResult_setReg_advance (subResult_mod _ _)⟩,
    ⟨_, exec_of_completes (.mul ha hb), registerResult_setReg_advance rfl⟩⟩

/-! ### DIV and MOD (R165, R166) -/

theorem divResult_lt (x y : Byte) : divResult x y < 256 := (Nat.div_le_self _ _).trans_lt x.isLt

theorem modResult_lt (x y : Byte) : modResult x y < 256 := (Nat.mod_le _ _).trans_lt x.isLt

/-- Settles O20: quotient and remainder are those of the division law, and neither exceeds the dividend, so none wraps. -/
theorem divModResults : Obligations.DivModResults := by
  unfold Obligations.DivModResults
  intro s a b i j ha hb h0
  have hpos : 0 < (s.reg j).toNat := by bv_omega
  exact ⟨divResult (s.reg i) (s.reg j), modResult (s.reg i) (s.reg j), (Nat.div_add_mod' _ _).symm, Nat.mod_lt _ hpos,
    ⟨_, exec_of_completes (.div ha hb h0), registerResult_setReg_advance (Nat.mod_eq_of_lt (divResult_lt _ _))⟩,
    ⟨_, exec_of_completes (.mod ha hb h0), registerResult_setReg_advance (Nat.mod_eq_of_lt (modResult_lt _ _))⟩⟩

/-! ### INC, DEC and NOT (R167, R168, R172) -/

theorem incResult_mod (x : Byte) : incResult x % 256 = if x.toNat = 255 then 0 else x.toNat + 1 := by
  unfold incResult
  split <;> omega

theorem decResult_mod (x : Byte) : decResult x % 256 = if x.toNat = 0 then 255 else x.toNat - 1 := by
  unfold decResult
  split <;> omega

theorem notResult_lt (x : Byte) : notResult x < 256 := by
  unfold notResult
  omega

/-- Settles O22: each completes with one register write; INC wraps at 255 only, DEC at 0 only, NOT nowhere. -/
theorem incDecNotResults : Obligations.IncDecNotResults := by
  unfold Obligations.IncDecNotResults
  intro s a i ha
  exact ⟨⟨_, exec_of_completes (.inc ha), registerResult_setReg_advance (incResult_mod _)⟩,
    ⟨_, exec_of_completes (.dec ha), registerResult_setReg_advance (decResult_mod _)⟩,
    ⟨_, exec_of_completes (.not ha), registerResult_setReg_advance (Nat.mod_eq_of_lt (notResult_lt _))⟩⟩

/-! ### AND, OR and XOR (R169 to R171) -/

/-- Settles O23: the register reads back the byte written, whose bits are the operation on the operands' bits. -/
theorem andOrXorBits : Obligations.AndOrXorBits := by
  unfold Obligations.AndOrXorBits
  intro s a b i j ha hb
  refine ⟨⟨_, _, exec_of_completes (.and ha hb), registerResult_setReg_advance rfl, fun n _ => ?_⟩,
    ⟨_, _, exec_of_completes (.or ha hb), registerResult_setReg_advance rfl, fun n _ => ?_⟩,
    ⟨_, _, exec_of_completes (.xor ha hb), registerResult_setReg_advance rfl, fun n _ => ?_⟩⟩
  · rw [State.advance_reg, andResult, State.reg_setReg_toNat, BitVec.getLsbD_and]
  · rw [State.advance_reg, orResult, State.reg_setReg_toNat, BitVec.getLsbD_or]
  · rw [State.advance_reg, xorResult, State.reg_setReg_toNat, BitVec.getLsbD_xor]

/-! ### SHL and SHR (R173, R174) -/

/-- From an amount of 8 on, 256 divides the product. -/
theorem shlResult_mod (x y : Byte) :
    shlResult x y % 256 = if 8 ≤ y.toNat then 0 else x.toNat * 2 ^ y.toNat % 256 := by
  split
  · next h => exact Nat.mod_eq_zero_of_dvd ((pow_dvd_pow 2 h).mul_left _)
  · rfl

/-- From an amount of 8 on, the divisor exceeds every byte; below, the quotient is a byte. -/
theorem shrResult_mod (x y : Byte) :
    shrResult x y % 256 = if 8 ≤ y.toNat then 0 else x.toNat / 2 ^ y.toNat := by
  have hlt : shrResult x y < 256 := (Nat.div_le_self _ _).trans_lt x.isLt
  rw [Nat.mod_eq_of_lt hlt]
  split
  · next h => exact Nat.div_eq_of_lt (x.isLt.trans_le (Nat.pow_le_pow_right Nat.two_pos h))
  · rfl

/-- Settles O24: each completes with one register write, of a result that is 0 from an amount of 8 on. -/
theorem shlShrResults : Obligations.ShlShrResults := by
  unfold Obligations.ShlShrResults
  intro s a b i j ha hb
  exact ⟨⟨_, exec_of_completes (.shl ha hb), registerResult_setReg_advance (shlResult_mod _ _)⟩,
    ⟨_, exec_of_completes (.shr ha hb), registerResult_setReg_advance (shrResult_mod _ _)⟩⟩

/-! ### CMP (R175) -/

theorem compareFlag_of_gt {x y : Byte} (h : x.toNat > y.toNat) : compareFlag x y = .G := if_pos h

theorem compareFlag_of_lt {x y : Byte} (h : x.toNat < y.toNat) : compareFlag x y = .L :=
  (if_neg (Nat.lt_asymm h)).trans (if_pos h)

theorem compareFlag_self (x : Byte) : compareFlag x x = .E :=
  (if_neg (Nat.lt_irrefl _)).trans (if_neg (Nat.lt_irrefl _))

/-- Exactly one of the three flags, by which of the three order relations holds. -/
theorem compareFlag_iff (x y : Byte) :
    (compareFlag x y = .G ↔ x.toNat > y.toNat) ∧ (compareFlag x y = .L ↔ x.toNat < y.toNat) ∧
      (compareFlag x y = .E ↔ x = y) := by
  rcases Nat.lt_trichotomy x.toNat y.toNat with h | h | h
  · have hne : x ≠ y := fun hxy => h.ne (congrArg BitVec.toNat hxy)
    simp [compareFlag_of_lt h, h, h.le, hne]
  · obtain rfl := BitVec.eq_of_toNat_eq h
    simp [compareFlag_self]
  · have hne : x ≠ y := fun hxy => h.ne' (congrArg BitVec.toNat hxy)
    simp [compareFlag_of_gt h, h, h.le, hne]

/-- Settles O25: the completed CMP is the state with the comparison's flag set and pc past its three bytes. -/
theorem cmpSetsFlag : Obligations.CmpSetsFlag := by
  unfold Obligations.CmpSetsFlag
  intro s a b i j ha hb
  obtain ⟨hG, hL, hE⟩ := compareFlag_iff (s.reg i) (s.reg j)
  exact ⟨_, exec_of_completes (.cmp ha hb), hG, hL, hE, rfl, rfl, fun _ => rfl, fun _ _ => ⟨rfl, rfl⟩, rfl, ⟨rfl, rfl⟩⟩

end Sys2Proof.Machine
end

section
/-! The exception family: what raises each fault kind, what a fault entry leaves unchanged, and the model-only faults of the
checked step. -/

namespace Sys2Proof

variable {map : OpcodeMap}

/-! ### The bytes outside an opcode map (R75, R82) -/

theorem isSome_decodeFields_iff (hadm : map.Admissible) {op : Byte} :
    (decodeFields map op).isSome = true ↔ ∃ m, map m = op := by
  constructor
  · intro h
    unfold decodeFields at h
    split at h
    · next m hm => exact ⟨m, ((decodeOpcodeWith_eq_ok_iff hadm).1 hm).symm⟩
    · cases h
  · rintro ⟨m, rfl⟩
    simp [decodeFields, decodeOpcodeWith_map hadm]

theorem OpcodeMap.Admissible.injective (hadm : map.Admissible) : Function.Injective map := fun m m' h => by
  simpa [h, decodeOpcodeWith_map hadm] using (decodeOpcodeWith_map hadm m).symm

/-- The bytes that decode under an admissible map are the map's bytes. -/
theorem filter_isSome_decodeFields_perm (hadm : map.Admissible) :
    ((List.range 256).filter fun n => (decodeFields map (BitVec.ofNat 8 n)).isSome).Perm
      (Mnemonic.all.map fun m => (map m).toNat) := by
  have hnodup : (Mnemonic.all.map fun m => (map m).toNat).Nodup :=
    List.Nodup.map (fun m m' h => hadm.injective (BitVec.eq_of_toNat_eq h)) (by decide)
  refine (List.perm_ext_iff_of_nodup (List.nodup_range.filter _) hnodup).2 fun n => ?_
  simp only [List.mem_filter, List.mem_range, isSome_decodeFields_iff hadm, List.mem_map]
  constructor
  · rintro ⟨hn, m, hm⟩
    exact ⟨m, m.mem_all, by rw [hm, BitVec.toNat_ofNat, Nat.mod_eq_of_lt hn]⟩
  · rintro ⟨m, -, rfl⟩
    exact ⟨(map m).isLt, m, by simp⟩

/-- Of the 256 bytes all but the map's 24 decode to nothing. -/
theorem length_filter_isNone_decodeFields (hadm : map.Admissible) :
    ((List.range 256).filter fun n => (decodeFields map (BitVec.ofNat 8 n)).isNone).length = 232 := by
  have hsome : ((List.range 256).filter fun n => (decodeFields map (BitVec.ofNat 8 n)).isSome).length = 24 :=
    (filter_isSome_decodeFields_perm hadm).length_eq
  have hsplit := List.length_eq_length_filter_add (l := List.range 256)
    fun n => (decodeFields map (BitVec.ofNat 8 n)).isSome
  simp only [Option.not_isSome, List.length_range, hsome] at hsplit
  omega

end Sys2Proof

namespace Sys2Proof.Machine

variable {map : OpcodeMap} {s t : State} {ins : Instr} {k : FaultKind} {a b : Byte} {i j : Fin 8}
  {cs : List (OperandRole × Byte)}

/-! ### The entry into a fault (R12, R207, R209) -/

/-- The model's fault entry is the one the statements describe. -/
theorem faultedFrom_enterFault (k : FaultKind) (s : State) : FaultedFrom k s (s.enterFault k) := rfl

theorem exists_faultedFrom_of_raises (h : Raises s ins k) : ∃ t, exec ins s = .next t ∧ FaultedFrom k s t :=
  ⟨_, exec_of_raises h, faultedFrom_enterFault k s⟩

/-- Settles O15: a cycle begins RUNNING and a completed instruction ends RUNNING or HALTED, so a FAULTED end is the entry of
a fault raised in the fetch, the decode or the execution. -/
theorem faultEntryIsPrecise : Obligations.FaultEntryIsPrecise := by
  unfold Obligations.FaultEntryIsPrecise
  intro map s t h ht
  obtain ⟨hrun, ⟨k, -, rfl⟩ | ⟨ins, -, -, -, hc | ⟨k, -, rfl⟩⟩⟩ := stepWith_cases h
  · exact ⟨k, faultedFrom_enterFault k s⟩
  · obtain hsame | ⟨-, rfl⟩ := (effect_of_completes hc).run_cases
    · simp [hsame, hrun] at ht
    · simp at ht
  · exact ⟨k, faultedFrom_enterFault k s⟩

/-! ### UnsupportedOpcode (R102, R202) -/

/-- A byte outside an admissible map decodes to no mnemonic, so the decode raises. -/
theorem stepWith_of_not_mem_map (hadm : map.Admissible) (hrun : s.run = .running) (hpc : s.pc ≤ 253)
    (hop : ∀ m, map m ≠ s.mem.read s.pc) : stepWith map s = .next
      { s with run := .faulted, fault := some ⟨.unsupportedOpcode, s.pc, some (s.mem.read s.pc)⟩ } := by
  rw [← State.opcodeAtPc_of_le (s := s) (by omega)]
  rcases fetchDecodeWith_cases map s with ⟨hgt, -⟩ | ⟨-, -, hf⟩ | ⟨-, ins, -, -, hm, -⟩
  · omega
  · exact stepWith_of_error hrun hf
  · exact absurd ((decodeOpcodeWith_eq_ok_iff hadm).1 hm).symm (hop _)

/-- Settles O13: the default map is admissible and its bytes are those of R80. -/
theorem illegalOpcodesRaiseUnsupported : Obligations.IllegalOpcodesRaiseUnsupported := by
  unfold Obligations.IllegalOpcodesRaiseUnsupported
  refine ⟨fun map hadm s => stepWith_of_not_mem_map hadm, fun s hrun hpc hop => ?_,
    length_filter_isNone_decodeFields opcodeMap_admissible⟩
  rw [← defaultOpcodeMapAdmissible.2] at hop
  refine stepWith_of_not_mem_map opcodeMap_admissible hrun hpc fun m hm => hop (hm ▸ List.mem_map_of_mem ?_)
  cases m <;> decide

/-! ### DivisionByZero and StackBounds (R203, R205) -/

/-- Settles O21: with both operands naming registers, a zero divisor is what `Raises` asks of DIV and MOD. -/
theorem divisionByZeroRaises : Obligations.DivisionByZeroRaises := by
  unfold Obligations.DivisionByZeroRaises
  exact fun s a b i j ha hb h0 =>
    ⟨exists_faultedFrom_of_raises (.div ha hb h0), exists_faultedFrom_of_raises (.mod ha hb h0)⟩

/-- Settles O35: POP tests SP after it has written the popped byte, so the tested value is the old SP unless the register
is R7, and the popped byte if it is. -/
theorem stackBoundsRaised : Obligations.StackBoundsRaised := by
  unfold Obligations.StackBoundsRaised
  intro s a i ha
  refine ⟨fun hsp => ⟨exists_faultedFrom_of_raises (.push ha hsp), exists_faultedFrom_of_raises (.call ha hsp)⟩,
    fun hsp => ⟨exists_faultedFrom_of_raises (.ret hsp), fun hi => ?_⟩, ?_⟩
  · have hkeep : (s.setReg i (s.mem.read s.sp.toNat).toNat).sp = s.sp := s.sp_setReg_ne i _ hi
    exact exists_faultedFrom_of_raises (.pop ha (hkeep.trans hsp))
  · rintro rfl hbyte
    have hpopped : (s.setReg spIndex (s.mem.read s.sp.toNat).toNat).sp = s.mem.read s.sp.toNat :=
      s.reg_setReg_toNat spIndex _
    exact exists_faultedFrom_of_raises (.pop ha (hpopped.trans hbyte))

/-! ### HALTED is no fault (R211) -/

/-- Settles O30: a RUNNING state of the invariant has no record, and HLT writes none. -/
theorem hltHalts : Obligations.HltHalts := by
  unfold Obligations.HltHalts
  refine fun s => ⟨exec_of_completes .hlt, fun hs hrun => ⟨s.halt, exec_of_completes .hlt, ?_⟩⟩
  simp [State.status, hs.fault_eq_none hrun]

/-! ### What the written check raises (R106, R206, R208)

The checks run in the order operand a, operand b, FL. -/

theorem exists_faultedFrom_of_writtenCheck (h : writtenCheck ins s = .error k) :
    ∃ t, execChecked ins s = .next t ∧ FaultedFrom k s t :=
  ⟨s.enterFault k, by rw [execChecked, h], faultedFrom_enterFault k s⟩

theorem checkOperand_of_written (ha : a.toNat = i.val) (hw : registerWritten s i = true) :
    checkOperand s (.src, a) = .ok () := by
  simp [checkOperand, checkSrc_of_eq ha, hw, bind, Except.bind]

theorem checkOperand_of_unwritten (ha : a.toNat = i.val) (hw : registerWritten s i = false) :
    checkOperand s (.src, a) = .error .unwrittenRegister := by
  simp [checkOperand, checkSrc_of_eq ha, hw, bind, Except.bind]

theorem writtenCheck_of_unwritten_first (ha : a.toNat = i.val) (hw : registerWritten s i = false)
    (hops : operandChecks ins = (.src, a) :: cs) : writtenCheck ins s = .error .unwrittenRegister := by
  rw [writtenCheck, hops, checkOperands, checkOperand_of_unwritten ha hw]
  rfl

theorem writtenCheck_of_unwritten_second (ha : a.toNat = i.val) (hwa : registerWritten s i = true)
    (hb : b.toNat = j.val) (hwb : registerWritten s j = false) (hops : operandChecks ins = (.src, a) :: (.src, b) :: cs) :
    writtenCheck ins s = .error .unwrittenRegister := by
  rw [writtenCheck, hops, checkOperands, checkOperand_of_written ha hwa, checkOperands, checkOperand_of_unwritten hb hwb]
  rfl

theorem writtenCheck_of_unwritten_flags (ha : a.toNat = i.val) (hw : registerWritten s i = true)
    (hfl : s.flWritten = false) (hops : operandChecks ins = [(.src, a)]) (hreads : readsFlags ins = true) :
    writtenCheck ins s = .error .unwrittenFlags := by
  rw [writtenCheck, hops, checkOperands, checkOperand_of_written ha hw, hreads, hfl]
  rfl

/-- Settles O48: the instructions of each list have the operand checks that the lemma of its case asks for. -/
theorem checkedStepRaisesUnwritten : Obligations.CheckedStepRaisesUnwritten := by
  unfold Obligations.CheckedStepRaisesUnwritten
  intro s a i ha
  have hone : ∀ ins ∈ [Instr.prn a, .push a, .call a, .jmp a, .jeq a, .jne a, .inc a, .dec a, .not a],
      operandChecks ins = [(.src, a)] := by simp [operandChecks]
  have htwo (b : Byte) : ∀ ins ∈ [Instr.add a b, .sub a b, .mul a b, .div a b, .mod a b, .cmp a b, .and a b, .or a b,
      .xor a b, .shl a b, .shr a b], operandChecks ins = [(.src, a), (.src, b)] := by simp [operandChecks]
  have hjump : ∀ ins ∈ [Instr.jeq a, .jne a], operandChecks ins = [(.src, a)] ∧ readsFlags ins = true := by
    simp [operandChecks, readsFlags]
  refine ⟨fun hw => ⟨fun ins hins => ?_, fun b ins hins => ?_⟩,
    fun hw => ⟨fun b j hb hwb ins hins => ?_, fun hfl ins hins => ?_⟩⟩
  · exact exists_faultedFrom_of_writtenCheck (writtenCheck_of_unwritten_first ha hw (hone ins hins))
  · exact exists_faultedFrom_of_writtenCheck (writtenCheck_of_unwritten_first ha hw (htwo b ins hins))
  · exact exists_faultedFrom_of_writtenCheck (writtenCheck_of_unwritten_second ha hw hb hwb (htwo b ins hins))
  · obtain ⟨hops, hreads⟩ := hjump ins hins
    exact exists_faultedFrom_of_writtenCheck (writtenCheck_of_unwritten_flags ha hw hfl hops hreads)

/-! ### The checked step against the step (R38, R206) -/

theorem checkOperand_error {c : OperandRole × Byte} (h : checkOperand s c = .error k) :
    k = .unwrittenRegister ∨ k = .outOfBounds ∧ 7 < c.2.toNat := by
  obtain ⟨role, r⟩ := c
  rcases register_or_gt r with ⟨i, hi⟩ | hgt
  · cases role with
    | dst => simp [checkOperand, checkDst_of_eq hi, bind, Except.bind] at h
    | src =>
      cases hw : registerWritten s i with
      | true => simp [checkOperand_of_written hi hw] at h
      | false => exact .inl (by simpa [checkOperand_of_unwritten hi hw] using h.symm)
  · have hk : k = .outOfBounds := by
      cases role <;> simpa [checkOperand, checkSrc_of_gt hgt, checkDst_of_gt hgt, bind, Except.bind] using h.symm
    exact .inr ⟨hk, hgt⟩

/-- A sequence of two checks raises what the first of them to raise does. -/
theorem error_of_seq_error {x y : Except FaultKind Unit} (h : (x >>= fun _ => y) = .error k) :
    x = .error k ∨ y = .error k := by
  cases x with
  | error k' => exact .inl h
  | ok u => exact .inr h

theorem checkOperands_error (h : checkOperands s cs = .error k) :
    k = .unwrittenRegister ∨ k = .outOfBounds ∧ ∃ c ∈ cs, 7 < c.2.toNat := by
  induction cs with
  | nil => cases h
  | cons c cs ih =>
    rcases error_of_seq_error h with hc | hcs
    · exact (checkOperand_error hc).imp_right fun ⟨hk, hgt⟩ => ⟨hk, c, .head cs, hgt⟩
    · exact (ih hcs).imp_right fun ⟨hk, d, hd, hgt⟩ => ⟨hk, d, .tail c hd, hgt⟩

theorem writtenCheck_error (h : writtenCheck ins s = .error k) :
    k = .unwrittenRegister ∨ k = .unwrittenFlags ∨ k = .outOfBounds ∧ ins.wellFormed = false := by
  rcases error_of_seq_error h with hops | hfl
  · exact (checkOperands_error hops).imp_right fun ⟨hk, c, hc, hgt⟩ =>
      .inr ⟨hk, wellFormed_eq_false_of_operandCheck hc hgt⟩
  · split at hfl
    · exact .inr (.inl (by simpa using hfl.symm))
    · cases hfl

/-- The checked meaning is the instruction's own or the entry of a model-only fault: an `OutOfBounds` that the written check
raises is the one the instruction itself raises. -/
theorem execChecked_cases (ins : Instr) (s : State) :
    execChecked ins s = exec ins s ∨
      ∃ t, execChecked ins s = .next t ∧ (FaultedFrom .unwrittenRegister s t ∨ FaultedFrom .unwrittenFlags s t) := by
  cases hcheck : writtenCheck ins s with
  | ok u => exact .inl (by rw [execChecked, hcheck])
  | error k =>
    obtain ⟨t, hnext, hfault⟩ := exists_faultedFrom_of_writtenCheck hcheck
    rcases writtenCheck_error hcheck with rfl | rfl | ⟨rfl, hwf⟩
    · exact .inr ⟨t, hnext, .inl hfault⟩
    · exact .inr ⟨t, hnext, .inr hfault⟩
    · exact .inl (by rw [execChecked, hcheck, exec_of_not_wellFormed hwf])

/-- No instruction's meaning stops the machine. -/
theorem exists_exec_eq_next (ins : Instr) (s : State) : ∃ t, exec ins s = .next t := by
  rcases completes_or_raises s ins with ⟨t, hc⟩ | ⟨k, hr⟩
  · exact ⟨t, exec_of_completes hc⟩
  · exact ⟨_, exec_of_raises hr⟩

/-- The two steps differ at most in the meaning of the decoded instruction. -/
theorem stepCheckedWith_cases (map : OpcodeMap) (s : State) :
    stepCheckedWith map s = stepWith map s ∨
      ∃ ins, fetchDecodeWith map s = .ok ins ∧ stepCheckedWith map s = execChecked ins s ∧ stepWith map s = exec ins s := by
  unfold stepCheckedWith stepWith
  cases s.run with
  | halted | faulted => exact .inl rfl
  | running =>
    cases fetchDecodeWith map s with
    | error k => exact .inl rfl
    | ok ins => exact .inr ⟨ins, rfl, rfl, rfl⟩

/-- Settles O50: the two steps can differ only at a decoded instruction, where neither stops; there the checked meaning is
the instruction's own or the entry of a model-only fault, and its own where it reads only what is written. -/
theorem checkedStepAgreesWithStep : Obligations.CheckedStepAgreesWithStep := by
  unfold Obligations.CheckedStepAgreesWithStep
  intro map s
  rcases stepCheckedWith_cases map s with heq | ⟨ins, hf, hchecked, hstep⟩
  · exact ⟨fun f => by rw [heq], fun t h => .inl (heq ▸ h), fun _ => heq⟩
  · rw [hchecked, hstep]
    have hsame (h : ∀ i, fetchDecodeWith map s = .ok i → ReadsOnlyWritten s i) : execChecked ins s = exec ins s :=
      (h ins hf).execChecked_eq
    rcases execChecked_cases ins s with heq | ⟨v, hv, hfault⟩
    · exact ⟨fun f => by rw [heq], fun t h => .inl (heq ▸ h), hsame⟩
    · obtain ⟨u, hu⟩ := exists_exec_eq_next ins s
      refine ⟨fun f => by simp [hu, hv], fun t h => .inr ?_, hsame⟩
      obtain rfl : v = t := by simpa [hv] using h
      exact hfault

end Sys2Proof.Machine
end

section
/-! The R7 corner cases of the stack instructions (R234), read off the rules for PUSH, POP and CALL on every register. -/

namespace Sys2Proof.Machine

theorem spOperand_toNat : (7 : Byte).toNat = spIndex.val := rfl

/-- Settles O36: PUSH stores R7 as it reads after the decrement; POP R7 increments the byte it popped; CALL reads its
target from R7 after the push, which is the address that holds the return address. -/
theorem stackPointerOperandIsSequential : Obligations.StackPointerOperandIsSequential := by
  unfold Obligations.StackPointerOperandIsSequential
  refine fun s hm => ⟨fun hsp => ?push, fun hbyte => ?pop, fun hsp hpc => ?call⟩
  case push =>
    obtain ⟨t, hpush, htsp, htbyte, -⟩ := pushStoresAtNewSp s 7 spIndex spOperand_toNat hsp hm
    exact ⟨t, hpush, htbyte ▸ htsp⟩
  case pop =>
    obtain ⟨-, hpopSp⟩ := popLoadsFromSp s 7 spIndex spOperand_toNat
    obtain ⟨t, hpop, htsp, -⟩ := hpopSp rfl hbyte
    exact ⟨t, hpop, htsp⟩
  case call =>
    obtain ⟨t, hcall, -, htbyte, htpc, -⟩ := callPushesReturnAddress s 7 spIndex spOperand_toNat hsp hm hpc
    rw [if_pos rfl] at htpc
    exact ⟨t, hcall, htpc, htpc ▸ htbyte⟩

end Sys2Proof.Machine
end
